-- ==== Sys2Proof/Word.lean ====
section
/-! DEFINITION. The bit-vector widths the engine's bytes and host registers have. -/
namespace Sys2Proof

/-- A byte is an unsigned 8-bit value (00_scope.md R6). -/
abbrev Byte := BitVec 8

/-- A host-visible register is 32 bits wide (00_scope.md R5 `REG_WIDTH`, 10_state.md R33). -/
abbrev Word := BitVec 32

end Sys2Proof
end

