-- ==== Sys2Proof/Machine/Operands.lean ====
section
/-! DEFINITION. Operand assembly: the two multi-byte fields, in their opposite byte orders (20_memory.md R66), and
the back-reference bit-field extractor with its inverse. -/
namespace Sys2Proof.Machine

/-- The declared size, little-endian: `{IN[3], IN[2], IN[1]}` (20_memory.md R63). -/
def littleEndian24 (a b c : Byte) : BitVec 24 := c ++ (b ++ a)

/-- The token value, big-endian: the first byte is the most significant (20_memory.md R64). -/
def bigEndian16 (hi lo : Byte) : BitVec 16 := hi ++ lo

/-- `Extract(v)`: `count = v[15:12] + 3`, `disp = v[11:0] + 1`, both zero-extended before the addition
(42_backref.md R140). -/
def extract (v : BitVec 16) : BitVec 5 × BitVec 13 :=
  ((v.extractLsb' 12 4).setWidth 5 + 3, (v.extractLsb' 0 12).setWidth 13 + 1)

/-- The 16-bit value of a back-reference with these operands: `{count − 3, disp − 1}` (30_encoding.md R84,
R91). -/
def packToken (count : BitVec 5) (disp : BitVec 13) : BitVec 16 :=
  (count - 3).setWidth 4 ++ (disp - 1).setWidth 12

/-- A 32-bit register value from its bytes, most significant first. -/
def wordOfBytes (b3 b2 b1 b0 : Byte) : Word := b3 ++ (b2 ++ (b1 ++ b0))

/-- The bytes of a 32-bit register value, most significant first. -/
def bytesOfWord (w : Word) : List Byte :=
  [w.extractLsb' 24 8, w.extractLsb' 16 8, w.extractLsb' 8 8, w.extractLsb' 0 8]

end Sys2Proof.Machine
end

