-- ==== Sys2Proof/Syntax.lean ====
section
/-! DEFINITION. The engine's instructions: one constructor per row of spec/opcode_table.json. -/
namespace Sys2Proof

/-- The five elements: four elements of the compressed stream (30_encoding.md R80) and the host's START command
(44_host.md R180). A back-reference carries its operands `count` and `disp`, not the raw fields. -/
inductive Instr where
  /-- HDR, and `HDR.TAG` for any tag (30_encoding.md R81, R91; log entry 12). -/
  | hdr (tag : Byte) (size : BitVec 24)
  /-- CTRL: the eight flags (30_encoding.md R82). -/
  | ctrl (flags : Byte)
  /-- LIT: the output byte itself (30_encoding.md R83). -/
  | lit (b : Byte)
  /-- BREF: copy `count` bytes from `disp` positions back (30_encoding.md R84, R85). -/
  | bref (count : BitVec 5) (disp : BitVec 13)
  /-- START: bits 31:1 of the value written to CMD, which are ignored (10_state.md R34). -/
  | start (x : BitVec 31)
  deriving DecidableEq, Repr

/-- The formats of 30_encoding.md R80, and the register format of the table's START row. -/
inductive Format where
  | h32
  | c8
  | l8
  | b16
  | reg32
  deriving DecidableEq, Repr

/-- Bytes of an element of the format (30_encoding.md R80; the table's `length_bytes`). -/
def Format.bytes : Format → Nat
  | .h32 => 4
  | .c8 => 1
  | .l8 => 1
  | .b16 => 2
  | .reg32 => 4

/-- The format each instruction is written in. -/
def Instr.format : Instr → Format
  | .hdr _ _ => .h32
  | .ctrl _ => .c8
  | .lit _ => .l8
  | .bref _ _ => .b16
  | .start _ => .reg32

end Sys2Proof
end

