-- ==== Sys2Proof/WellFormed.lean ====
section
/-! DEFINITION. Which instructions are encodings: the operand ranges of 30_encoding.md R91 and the one illegal
encoding of R89. -/
namespace Sys2Proof

/-- `TAG`, the required value of input byte 0 (00_scope.md R5). -/
def formatTag : Byte := 0x10

/-- "The only illegal encoding is a header whose byte 0 is not 0x10" (30_encoding.md R89); a back-reference has
3 ≤ count ≤ 18 and 1 ≤ disp ≤ 4096 (R91). Every other operand value is legal (R88). -/
def Instr.wf : Instr → Bool
  | .hdr tag _ => tag == formatTag
  | .ctrl _ => true
  | .lit _ => true
  | .bref count disp =>
    decide (3 ≤ count.toNat) && decide (count.toNat ≤ 18) &&
      decide (1 ≤ disp.toNat) && decide (disp.toNat ≤ 4096)
  | .start _ => true

end Sys2Proof
end

