-- ==== Sys2Proof/Decode.lean ====
section
/-! DEFINITION. The decoder, total on any bytes, and after it the encoder and the assembler notation of
30_encoding.md R91, R92. The engine's state selects the format (R87), never a bit of the element itself. -/
namespace Sys2Proof

open Sys2Proof.Machine

/-- Why bytes are no element of a format. -/
inductive DecodeError where
  /-- The format has more bytes than there are: the engine takes the failure its step names for it (TooSmall or
  TruncatedInput, 60_exceptions.md R200), never this error. -/
  | tooFewBytes (f : Format) (present : Nat)
  /-- A CMD value with bit 0 = 0 starts nothing (10_state.md R34). -/
  | notStart
  deriving DecidableEq, Repr

/-- Read one element of format `f` from the front of the bytes, and give the bytes after it.
H32: tag, then the size little-endian (30_encoding.md R81); C8 (R82); L8 (R83); B16 (R84, R85); REG32: the value
written to CMD, here as four bytes, most significant first (44_host.md R180; log entry 14). -/
def decode (f : Format) (bs : List Byte) : Except DecodeError (Instr × List Byte) :=
  match f, bs with
  | .h32, tag :: a :: b :: c :: rest => .ok (.hdr tag (littleEndian24 a b c), rest)
  | .c8, b :: rest => .ok (.ctrl b, rest)
  | .l8, b :: rest => .ok (.lit b, rest)
  | .b16, hi :: lo :: rest =>
    .ok (.bref (extract (bigEndian16 hi lo)).1 (extract (bigEndian16 hi lo)).2, rest)
  | .reg32, b3 :: b2 :: b1 :: b0 :: rest =>
    if (wordOfBytes b3 b2 b1 b0).getLsbD 0 then
      .ok (.start ((wordOfBytes b3 b2 b1 b0).extractLsb' 1 31), rest)
    else .error .notStart
  | f, bs => .error (.tooFewBytes f bs.length)

/-- The bytes of an instruction, in stream order (30_encoding.md R81 to R84, R91); START's register value most
significant byte first. -/
def encode : Instr → List Byte
  | .hdr tag size => [tag, size.extractLsb' 0 8, size.extractLsb' 8 8, size.extractLsb' 16 8]
  | .ctrl flags => [flags]
  | .lit b => [b]
  | .bref count disp =>
    [(packToken count disp).extractLsb' 8 8, (packToken count disp).extractLsb' 0 8]
  | .start x => bytesOfWord (x ++ (1 : BitVec 1))

/-- The bytes of a stream written element by element (30_encoding.md R91). -/
def assemble (is : List Instr) : List Byte := is.flatMap encode

/-- The flag a token needs in its control byte: 1 for a BREF, 0 otherwise (30_encoding.md R82). -/
def tokenFlagOf : Instr → Bool
  | .bref _ _ => true
  | .hdr _ _ => false
  | .ctrl _ => false
  | .lit _ => false
  | .start _ => false

/-- The control byte of a group: bit 7 − k is 1 exactly when token k is a BREF; flags after the last token are 0
(30_encoding.md R92). -/
def groupControl (group : List Instr) : Byte :=
  BitVec.ofNat 8
    ((List.range 8).foldl
      (fun acc k => 2 * acc + if ((group[k]?).map tokenFlagOf).getD false then 1 else 0) 0)

/-- `TOKENS t1; …; tn` (30_encoding.md R92): groups of up to 8 tokens, each preceded by its control byte. `fuel`
bounds the number of groups. -/
def expandTokensFuel : Nat → List Instr → List Instr
  | 0, _ => []
  | _ + 1, [] => []
  | fuel + 1, t :: ts =>
    .ctrl (groupControl ((t :: ts).take 8)) :: (t :: ts).take 8 ++
      expandTokensFuel fuel ((t :: ts).drop 8)

/-- `TOKENS t1; …; tn` (30_encoding.md R92); every group takes a token, so `length` groups are enough. -/
def expandTokens (ts : List Instr) : List Instr := expandTokensFuel ts.length ts

/-- The bytes of an `nbits`-bit table word in stream order. The table numbers a whole element as one number, bit 0
its least significant bit (98_reader.md), so the first byte in the stream is the most significant. -/
def tableBytes (nbits w : Nat) : List Byte :=
  (List.range (nbits / 8)).map fun k => BitVec.ofNat 8 (w >>> (nbits - 8 - 8 * k))

/-- Which row's format a table word is read in when no engine state says so: 8 bits C8, 16 bits B16, 32 bits H32
when the first byte is the tag and REG32 otherwise (log entry 10: CTRL and LIT words cannot be told apart by
their bits, 30_encoding.md R88). -/
def tableFormat (nbits w : Nat) : Option Format :=
  match nbits with
  | 8 => some .c8
  | 16 => some .b16
  | 32 => if (w >>> 24) % 256 = 16 then some .h32 else some .reg32
  | _ => none

/-- The well-formed instruction the decoder reads from an opcode-table word; none where it refuses. -/
def decodeTableWord (nbits w : Nat) : Option Instr :=
  match tableFormat nbits w with
  | none => none
  | some f =>
    match decode f (tableBytes nbits w) with
    | .ok (i, _) => if i.wf then some i else none
    | .error _ => none

end Sys2Proof
end

