-- ==== Sys2Proof/Config.lean ====
section
/-! DEFINITION. What an implementation fixes (the parameters of 00_scope.md R5 and 20_memory.md R70), and the
free values: opaque constants of which nothing in Lean can prove a value. -/
namespace Sys2Proof

/-- The two byte memories of the engine (10_state.md R43): `IN`, the compressed input, and `OUT`, the output. -/
inductive Bank where
  | input
  | output
  deriving DecidableEq, Repr

/-- The parameters the model takes (00_scope.md R5). They are held in the state, and no step changes them, so
that every statement over all states is a statement over all values of the parameters (log entry 1). -/
structure Config where
  /-- `MAX_INPUT`, the longest input accepted, in bytes (40_header.md R102). -/
  maxInput : Nat
  /-- How far `OUT_CAP` lies above the 16777215 bytes it must have at least. -/
  outSpare : Nat
  deriving DecidableEq, Repr

/-- The defaults of 00_scope.md R5: `MAX_INPUT` = 134217728; `OUT_CAP` = 16777215 (log entries 1, 2). -/
def Config.default : Config := { maxInput := 134217728, outSpare := 0 }

/-- `IN_CAP` equals `MAX_INPUT` (00_scope.md R5, decision D15). -/
def Config.inCap (c : Config) : Nat := c.maxInput

/-- `OUT_CAP` is at least 16777215 (00_scope.md R5, decision D5). -/
def Config.outCap (c : Config) : Nat := 16777215 + c.outSpare

/-- A parameter set the rules hold for: `MAX_INPUT` ≥ 4 (40_header.md R105) and `MAX_INPUT` < 2^32
(10_state.md R23). -/
abbrev Config.ok (c : Config) : Prop := 4 ≤ c.maxInput ∧ c.maxInput < 2 ^ 32

/-- FREE VALUE (log entry 3). The byte a memory holds at `addr` when nothing has written it since the
`resets`-th reset: "`IN` contents" and "`OUT` contents" are "unspecified" (70_reset_and_hazards.md R230). It is
one value for one offset between two resets, since reads are idempotent (20_memory.md R69). -/
opaque Config.unwritten (bank : Bank) (resets addr : Nat) : Byte

/-- FREE VALUE (log entry 4). What the host sees of a byte of `OUT` that is part of no result: at or above
OUT_LEN in DONE (44_host.md R184), anywhere after ERROR (60_exceptions.md R205). One value for one offset until
the next START or reset. -/
opaque Config.noResult (resets runs addr : Nat) : Byte

/-- FREE VALUE (log entry 5). The `n`-th unspecified value a host read returns while the engine is BUSY
(10_state.md R39 to R41, 44_host.md R183). -/
opaque Config.busyRead (n : Nat) : Word

/-- `REG_BASE`, left to the platform (20_memory.md R70); no step reads it. -/
opaque Config.regBase : Nat
/-- `IN_BASE`, left to the platform (20_memory.md R70); no step reads it. -/
opaque Config.inBase : Nat
/-- `OUT_BASE`, left to the platform (20_memory.md R70); no step reads it. -/
opaque Config.outBase : Nat

/-- Where host register `n` stands: "each at byte offset 4 × number in the engine's register window"
(10_state.md R33). -/
def Config.regAddress (n : Nat) : Nat := Config.regBase + 4 * n
/-- Where offset `a` of `IN` stands in the host's address space (20_memory.md R70). -/
def Config.inAddress (a : Nat) : Nat := Config.inBase + a
/-- Where offset `a` of `OUT` stands in the host's address space (20_memory.md R70). -/
def Config.outAddress (a : Nat) : Nat := Config.outBase + a

end Sys2Proof
end

