-- ==== Sys2Proof/Machine/State.lean ====
section
/-! DEFINITION. The engine's state as plain data, its reset value, and the reasons a step can stop. -/
namespace Sys2Proof.Machine

/-- The states of the state machine and, through `St.code`, their codes (10_state.md R20). -/
inductive St where
  | idle
  | check
  | ctrl
  | token
  | copy
  | done
  | error
  deriving DecidableEq, Repr

/-- The failure kinds and `none` for no failure (60_exceptions.md R200); codes through `ErrCode.code`. -/
inductive ErrCode where
  | none
  | tooSmall
  | tooLarge
  | invalidTag
  | truncatedInput
  | invalidBackReference
  deriving DecidableEq, Repr

/-- What the host can do (44_host.md R180 to R187), one interaction each (log entry 11). -/
inductive HostMove where
  /-- Assert the reset signal (70_reset_and_hazards.md R230). -/
  | reset
  /-- Read host register number `n` (44_host.md R181). -/
  | readReg (n : Nat)
  /-- Write `w` to host register number `n` (44_host.md R182); with `n` = 0 and bit 0 of `w` set, START. -/
  | writeReg (n : Nat) (w : Word)
  /-- Read the byte of `IN` at offset `a` (44_host.md R183). -/
  | readIn (a : Nat)
  /-- Write the byte of `IN` at offset `a` (44_host.md R183). -/
  | writeIn (a : Nat) (b : Byte)
  /-- Read the byte of `OUT` at offset `a` (44_host.md R183). -/
  | readOut (a : Nat)
  /-- Write the byte of `OUT` at offset `a` (44_host.md R183). -/
  | writeOut (a : Nat) (b : Byte)
  /-- Do nothing while the engine takes one step. -/
  | pass
  /-- "read STATUS until BUSY = 0" (70_reset_and_hazards.md R232 step 5): while BUSY the engine steps. -/
  | await
  deriving DecidableEq, Repr

/-- A byte memory: the bytes written since reset as (offset, byte) pairs with strictly rising offsets
(`Memory.wf`). An unlisted offset has no listed value (`Memory.read` answers none). -/
abbrev Memory := List Host.Cell

/-- The canonical form of a memory: strictly rising offsets. An unlisted offset reads as no value, so no listed
byte equals what an unlisted offset reads as. -/
abbrev Memory.wf (m : Memory) : Prop := (m.map Prod.fst).Pairwise (· < ·)

/-- The engine's registers (10_state.md R20 to R30), its two memories (R43), the parameters, and the model's own
fields: the host's pending moves and what its reads returned, and the counters the free values are applied to. -/
structure State where
  /-- The parameters of 00_scope.md R5; no step changes them. -/
  cfg : Config
  /-- The state register (R20). -/
  st : St
  /-- The input length, host register IN_LEN (R21, R35). -/
  inLen : Word
  /-- The declared original size (R22). -/
  size : BitVec 24
  /-- The input cursor, the engine's program counter (R23). -/
  ip : Word
  /-- The output length, which is the write position (R24). -/
  op : BitVec 24
  /-- The control byte most recently fetched, whose bits are the flags (R25, R27). -/
  ctrl : Byte
  /-- How many flags of `ctrl` have been used (R26). -/
  flagIdx : BitVec 4
  /-- The displacement of the copy in progress (R28). -/
  disp : BitVec 13
  /-- The bytes the copy in progress has still to write (R29). -/
  rem : BitVec 5
  /-- The kind of the failure of the last run (R30). -/
  errcode : ErrCode
  /-- `IN`, the input memory (20_memory.md R60). -/
  inMem : Memory
  /-- `OUT`, the output memory (20_memory.md R61). -/
  outMem : Memory
  /-- Model's own: the offsets of `OUT` the host has written since the last START or reset, strictly rising. -/
  outHost : List Nat
  /-- Model's own: resets so far, an argument of the free contents of the memories. -/
  resets : Nat
  /-- Model's own: runs started so far, an argument of the free bytes that are no result. -/
  runs : Nat
  /-- Model's own: unspecified values handed out while BUSY so far. -/
  draws : Nat
  /-- Model's own: the host's pending moves, the next one first; empty while the host leaves the engine alone. -/
  host : List HostMove
  /-- Model's own: what the host's reads returned, the latest first. -/
  replies : List Word
  deriving DecidableEq, Repr

/-- The machine right after reset (70_reset_and_hazards.md R230): every register 0, IDLE, memories with nothing
listed (their contents are the free `Config.unwritten`), no host move pending (log entries 3, 15). -/
def State.reset : State where
  cfg := Config.default
  st := .idle
  inLen := 0
  size := 0
  ip := 0
  op := 0
  ctrl := 0
  flagIdx := 0
  disp := 0
  rem := 0
  errcode := .none
  inMem := []
  outMem := []
  outHost := []
  resets := 0
  runs := 0
  draws := 0
  host := []
  replies := []

/-- Why the machine stops with a fault. The engine's own failures (60_exceptions.md R200) are no faults: a step
takes them as a next state in ERROR. -/
inductive Fault where
  /-- Raised by a host access of `IN` at or above `IN_CAP` or of `OUT` at or above `OUT_CAP`, and by an element
  fetch at or above `IN_CAP` (in states no run reaches): the offset does not exist (20_memory.md R60, R61).
  Safe: the spec gives such an access no effect (log entry 13). -/
  | noSuchOffset (bank : Bank) (a : Nat)
  deriving DecidableEq, Repr

/-- Why the machine has no meaning for what it is asked to do. -/
inductive Refusal where
  /-- Raised by `exec` alone, for an instruction that has no meaning yet. Safe. -/
  | notModelled (mnemonic : String)
  /-- Raised by the meaning of a stream element in a state that does not select it: "Taken when `st` = …", "Taken
  as the TOKEN step … when the flag … is …" (40_header.md R100, 41_control.md R120, R122, 42_backref.md R141,
  43_literal.md R170). `step` never asks for such an element. Safe (log entry 8). -/
  | notSelected
  /-- Raised by a step from a register state "never produced" (93_implementation_defined.md I14 `refuse`) or ruled
  out by 10_state.md R44: TOKEN with `flagIdx` > 7 or `op` ≥ `size`, COPY against R44 (d), a read of CTRL_STATE
  with `flagIdx` > 8. Safe (log entry 8). -/
  | neverProduced
  /-- Raised by a host write to `IN` or `OUT` while BUSY: it "gives the run no meaning; the model gives the host no
  such move" (20_memory.md R73). Safe (log entry 9). -/
  | hostWriteWhileBusy
  deriving DecidableEq, Repr

/-- The outcome of a step of this machine. -/
abbrev Out := Host.Outcome State Fault Refusal

end Sys2Proof.Machine
end

