-- ==== Sys2Proof/Machine/Flags.lean ====
section
/-! DEFINITION. The flags: the eight bits of the control byte, most significant first, and the update of the flag
index after a token. -/
namespace Sys2Proof.Machine

/-- `Flags(c) = [c[7], c[6], …, c[0]]`, "the '8 bits of a control byte, MSB first' extraction" (41_control.md
R123). -/
def flagsOf (c : Byte) : List Bool :=
  [c.getLsbD 7, c.getLsbD 6, c.getLsbD 5, c.getLsbD 4, c.getLsbD 3, c.getLsbD 2, c.getLsbD 1,
    c.getLsbD 0]

/-- The next token's flag, `ctrl[7 − flagIdx]`, for `flagIdx` < 8 (10_state.md R27). -/
def State.tokenFlag (s : State) : Bool := s.ctrl.getLsbD (7 - s.flagIdx.toNat)

/-- The after-token update (41_control.md R124), on the state with the token's own writes made: one flag more is
used; the run ends when the output has reached `size`, else the control byte is spent after 8 flags. -/
def State.afterToken (s : State) : State :=
  { s with
    flagIdx := s.flagIdx + 1
    st := if s.size.toNat ≤ s.op.toNat then .done
          else if s.flagIdx.toNat + 1 = 8 then .ctrl
          else .token }

end Sys2Proof.Machine
end

