-- ==== Sys2Proof/Machine/Ops.lean ====
section
/-! DEFINITION. The named operations over the memories and registers: byte access, failure entry, START and
reset, the selection of the next element, and what a step does before it fetches one. -/
namespace Sys2Proof.Machine

/-- The byte listed at an offset, if any. -/
def Memory.read : Memory → Nat → Option Byte
  | [], _ => none
  | (a, b) :: m, k => if k = a then some b else Memory.read m k

/-- Write one byte, keeping the canonical form. -/
def Memory.write : Memory → Nat → Byte → Memory
  | [], k, v => [(k, v)]
  | (a, b) :: m, k, v =>
    if k < a then (k, v) :: (a, b) :: m
    else if k = a then (k, v) :: m
    else (a, b) :: Memory.write m k v

/-- Add an offset to a strictly rising list of offsets. -/
def addOffset : List Nat → Nat → List Nat
  | [], k => [k]
  | a :: l, k => if k < a then k :: a :: l else if k = a then a :: l else a :: addOffset l k

/-- `MemRead(IN, a, 1)` (00_scope.md R7): the byte written last, or the free contents after reset. -/
def State.inByte (s : State) (a : Nat) : Byte :=
  (s.inMem.read a).getD (Config.unwritten .input s.resets a)

/-- `MemRead(OUT, a, 1)` (00_scope.md R7): the byte written last (20_memory.md R72), or the free contents after
reset. -/
def State.outByte (s : State) (a : Nat) : Byte :=
  (s.outMem.read a).getD (Config.unwritten .output s.resets a)

/-- `n` bytes of `IN` from offset `a`; none where one lies at or above `IN_CAP` (20_memory.md R60). -/
def State.readIn (s : State) : Nat → Nat → Option (List Byte)
  | _, 0 => some []
  | a, n + 1 => if a < s.cfg.inCap then (s.readIn (a + 1) n).map (s.inByte a :: ·) else none

/-- BUSY: `st` is CHECK, CTRL, TOKEN or COPY (10_state.md R20). -/
def State.busy (s : State) : Bool :=
  match s.st with
  | .check => true
  | .ctrl => true
  | .token => true
  | .copy => true
  | .idle => false
  | .done => false
  | .error => false

/-- `raise E`, failure entry: writes `errcode` and `st` and nothing else (60_exceptions.md R204). There is no
handler, no saved cursor and no return; START begins afresh (R207). -/
def State.raise (e : ErrCode) (s : State) : State := { s with errcode := e, st := .error }

/-- `MemWrite(OUT, op, 1, b)` and `op <- op + 1`: the only way the engine writes `OUT` (20_memory.md R61). Every
caller has `op` < `size` ≤ 16777215 ≤ `OUT_CAP`, so the offset exists. -/
def State.emit (b : Byte) (s : State) : State :=
  { s with outMem := s.outMem.write s.op.toNat b, op := s.op + 1 }

/-- What an accepted START writes (44_host.md R180). The bytes of `OUT` the host wrote are the run's now. -/
def State.startRun (s : State) : State :=
  { s with
    errcode := .none, size := 0, ip := 0, op := 0, ctrl := 0, flagIdx := 0, disp := 0, rem := 0
    st := .check
    outHost := [], runs := s.runs + 1 }

/-- What the reset signal writes (70_reset_and_hazards.md R230): every register its reset value, and both memories
new unspecified contents. The parameters, the host's moves and the free values' counters are not reset
(log entry 15). -/
def State.resetSignal (s : State) : State :=
  { State.reset with
    cfg := s.cfg, resets := s.resets + 1, runs := s.runs, draws := s.draws
    host := s.host, replies := s.replies }

/-- The loop condition is false: the output has reached `size` (41_control.md R120, R121). -/
def State.complete (s : State) : Bool := decide (s.size.toNat ≤ s.op.toNat)

/-- At least `n` bytes of the input are left at the cursor (41_control.md R120, 42_backref.md R141, 43_literal.md
R170). -/
def State.bytesLeft (s : State) (n : Nat) : Bool := decide (n ≤ s.inLen.toNat - s.ip.toNat)

/-- What the next element is, from the engine's state alone (30_encoding.md R87; 41_control.md R122 for TOKEN, where
`flagIdx` ≤ 7 and `op` < `size`). None where the engine fetches no element. -/
def State.selected (s : State) : Option Format :=
  match s.st with
  | .check => some .h32
  | .ctrl => some .c8
  | .token =>
    if s.flagIdx.toNat ≤ 7 ∧ s.op.toNat < s.size.toNat then
      if s.tokenFlag then some .b16 else some .l8
    else none
  | .copy => none
  | .idle => none
  | .done => none
  | .error => none

/-- Run a meaning where the state selects its format; refuse it elsewhere. -/
def whenSelected (f : Format) (s : State) (o : Out) : Out :=
  if s.selected = some f then o else .refused .notSelected

/-- What a step does before it reads any byte of an element, and in place of it; none where it goes on to fetch.
H32: TooSmall, then TooLarge (40_header.md R101, R102). C8: the run ends, else TruncatedInput (41_control.md R120).
L8, B16: TruncatedInput (43_literal.md R170, 42_backref.md R141). -/
def State.beforeFetch (s : State) : Format → Option State
  | .h32 =>
    if s.inLen.toNat < 4 then some (s.raise .tooSmall)
    else if s.cfg.maxInput < s.inLen.toNat then some (s.raise .tooLarge)
    else none
  | .c8 =>
    if s.complete then some { s with st := .done }
    else if s.bytesLeft 1 then none
    else some (s.raise .truncatedInput)
  | .l8 => if s.bytesLeft 1 then none else some (s.raise .truncatedInput)
  | .b16 => if s.bytesLeft 2 then none else some (s.raise .truncatedInput)
  | .reg32 => none

end Sys2Proof.Machine
end

