-- ==== Sys2Proof/Machine/BackRef.lean ====
section
/-! DEFINITION. BREF: the back-reference fetch, the sliding-window reader and the COPY step (42_backref.md). -/
namespace Sys2Proof.Machine

/-- `min(count, size − op)`, the bytes the copy writes (42_backref.md R142). -/
def State.copyLength (count : BitVec 5) (s : State) : BitVec 5 :=
  BitVec.ofNat 5 (min count.toNat (s.size.toNat - s.op.toNat))

/-- BREF fetch (42_backref.md R141): TruncatedInput first, then InvalidBackReference when `disp` > `op` (R144), else
both token bytes are consumed and the copy is set up. -/
def execBref (count : BitVec 5) (disp : BitVec 13) (s : State) : Out :=
  whenSelected .b16 s <|
    match s.beforeFetch .b16 with
    | some t => .next t
    | none =>
      if s.op.toNat < disp.toNat then .next (s.raise .invalidBackReference)
      else .next { s with ip := s.ip + 2, disp := disp, rem := s.copyLength count, st := .copy }

/-- `WindowRead(disp)`: the output byte `disp` positions before the write position (42_backref.md R143). -/
def State.windowRead (s : State) : Byte := s.outByte (s.op.toNat - s.disp.toNat)

/-- What 10_state.md R44 (d) says of a copy in progress, as far as the COPY step rests on it. -/
def State.copyReady (s : State) : Bool :=
  decide (1 ≤ s.rem.toNat) && decide (s.rem.toNat ≤ s.size.toNat - s.op.toNat) &&
    decide (1 ≤ s.disp.toNat) && decide (s.disp.toNat ≤ s.op.toNat) && decide (s.flagIdx.toNat ≤ 7)

/-- COPY, one byte of a back-reference copy (42_backref.md R145). It is no element of the stream: the token was read
by the BREF fetch (log entry 17). -/
def copyStep (s : State) : Out :=
  if s.copyReady then
    if s.rem.toNat - 1 = 0 then
      .next ({ s.emit s.windowRead with rem := s.rem - 1 } : State).afterToken
    else .next { s.emit s.windowRead with rem := s.rem - 1, st := .copy }
  else .refused .neverProduced

end Sys2Proof.Machine
end

