-- ==== Sys2Proof/Machine/Control.lean ====
section
/-! DEFINITION. CTRL: the control-byte fetch step (41_control.md). -/
namespace Sys2Proof.Machine

/-- CTRL, the control-byte fetch (41_control.md R120): the run ends when the output is complete, fails when no byte
is left, else all eight flags are written at once. -/
def execCtrl (flags : Byte) (s : State) : Out :=
  whenSelected .c8 s <|
    match s.beforeFetch .c8 with
    | some t => .next t
    | none => .next { s with ctrl := flags, ip := s.ip + 1, flagIdx := 0, st := .token }

end Sys2Proof.Machine
end

