-- ==== Sys2Proof/Machine/Header.lean ====
section
/-! DEFINITION. HDR: the CHECK step (40_header.md). -/
namespace Sys2Proof.Machine

/-- HDR, the CHECK step (40_header.md R100): TooSmall, TooLarge, InvalidTag in this order (R105), else the size is
parsed, the cursor stands at the token stream and the output is empty (R104). -/
def execHdr (tag : Byte) (size : BitVec 24) (s : State) : Out :=
  whenSelected .h32 s <|
    match s.beforeFetch .h32 with
    | some t => .next t
    | none =>
      if tag = formatTag then .next { s with size := size, ip := 4, op := 0, st := .ctrl }
      else .next (s.raise .invalidTag)

end Sys2Proof.Machine
end

