-- ==== Sys2Proof/Machine/HostIf.lean ====
section
/-! DEFINITION. The host interface: START, the register file and the host's access to the memories
(44_host.md, 10_state.md R33 to R41). -/
namespace Sys2Proof.Machine

/-- START (44_host.md R180): begins a run where the engine is not BUSY, and is ignored while it is. Bits 31:1 of the
written value are ignored (10_state.md R34). -/
def execStart (_x : BitVec 31) (s : State) : Out :=
  if s.busy then .next s else .next s.startRun

/-- The codes of the states (10_state.md R20). -/
def St.code : St → BitVec 3
  | .idle => 0
  | .check => 1
  | .ctrl => 2
  | .token => 3
  | .copy => 4
  | .done => 5
  | .error => 6

/-- The codes of the failure kinds (60_exceptions.md R200). -/
def ErrCode.code : ErrCode → BitVec 3
  | .none => 0
  | .tooSmall => 1
  | .tooLarge => 2
  | .invalidTag => 3
  | .truncatedInput => 4
  | .invalidBackReference => 5

/-- One bit. -/
def bit (b : Bool) : BitVec 1 := if b then 1 else 0

/-- STATUS: [2:0] STATE, bit 4 BUSY, bit 5 DONE, bit 6 ERR, all other bits 0 (10_state.md R36). -/
def State.statusWord (s : State) : Word :=
  ((bit (s.st == .error)) ++ (bit (s.st == .done)) ++ (bit s.busy) ++ (0 : BitVec 1) ++
    s.st.code).setWidth 32

/-- CTRL_STATE: [7:0] CTRL, [11:8] FLAGIDX, all other bits 0 (10_state.md R41). -/
def State.ctrlStateWord (s : State) : Word := (s.flagIdx ++ s.ctrl).setWidth 32

/-- The value of a host register where the spec fixes it (10_state.md R33 to R41); registers 8 and up read 0. -/
def State.regValue (s : State) (n : Nat) : Word :=
  match n with
  | 0 => 0
  | 1 => s.statusWord
  | 2 => s.errcode.code.setWidth 32
  | 3 => s.inLen
  | 4 => s.size.setWidth 32
  | 5 => s.ip
  | 6 => s.op.setWidth 32
  | 7 => s.ctrlStateWord
  | _ => 0

/-- The bits a register defines; the others "read as 0" (10_state.md R33). -/
def regMask (n : Nat) : Word :=
  match n with
  | 1 => 0x77
  | 2 => 0x7
  | 3 => 0xFFFFFFFF
  | 4 => 0xFFFFFF
  | 5 => 0xFFFFFFFF
  | 6 => 0xFFFFFF
  | 7 => 0xFFF
  | _ => 0

/-- IN_PTR, OUT_LEN and CTRL_STATE "while the engine is BUSY a read returns an unspecified value" (10_state.md R39 to
R41; log entry 5, and log entry 7 for ERROR). -/
def State.unspecifiedReg (s : State) (n : Nat) : Bool := s.busy && (n == 5 || n == 6 || n == 7)

/-- Give a value back to the host. -/
def State.reply (v : Word) (s : State) : State := { s with replies := v :: s.replies }

/-- Give an unspecified value back to the host, in the bits of `mask`, and count it. -/
def State.replyUnspecified (mask : Word) (s : State) : State :=
  { s with replies := (Config.busyRead s.draws &&& mask) :: s.replies, draws := s.draws + 1 }

/-- A host register read (44_host.md R181); it changes no register and no memory. FLAGIDX 9 to 15 are "never
produced" and have no meaning (93_implementation_defined.md I14). -/
def hostReadReg (n : Nat) (s : State) : Out :=
  if s.unspecifiedReg n then .next (s.replyUnspecified (regMask n))
  else if n = 7 ∧ 8 < s.flagIdx.toNat then .refused .neverProduced
  else .next (s.reply (s.regValue n))

/-- A host write to any register but CMD (44_host.md R182): IN_LEN takes it while not BUSY (10_state.md R35); every
other write is ignored. -/
def hostWriteReg (n : Nat) (w : Word) (s : State) : Out :=
  if n = 3 ∧ s.busy = false then .next { s with inLen := w } else .next s

/-- A host read of `IN`, at any time (44_host.md R183). -/
def hostReadIn (a : Nat) (s : State) : Out :=
  if a < s.cfg.inCap then .next (s.reply ((s.inByte a).setWidth 32))
  else .fault (.noSuchOffset .input a)

/-- A host write of `IN` while not BUSY (44_host.md R183, 20_memory.md R73). -/
def hostWriteIn (a : Nat) (b : Byte) (s : State) : Out :=
  if s.busy then .refused .hostWriteWhileBusy
  else if a < s.cfg.inCap then .next { s with inMem := s.inMem.write a b }
  else .fault (.noSuchOffset .input a)

/-- What the host sees of `OUT[a]` while not BUSY: a byte it wrote itself since the last run; the result in DONE;
before any run the memory's contents. The rest is no result and unspecified: `OUT` at or above OUT_LEN in DONE
(44_host.md R184), all the run wrote before it failed in ERROR (60_exceptions.md R205). -/
def State.outSeen (s : State) (a : Nat) : Byte :=
  if a ∈ s.outHost then s.outByte a
  else
    match s.st with
    | .done => if a < s.op.toNat then s.outByte a else Config.noResult s.resets s.runs a
    | .error => Config.noResult s.resets s.runs a
    | .idle => s.outByte a
    | .check => s.outByte a
    | .ctrl => s.outByte a
    | .token => s.outByte a
    | .copy => s.outByte a

/-- A host read of `OUT` (44_host.md R183): unspecified while BUSY. -/
def hostReadOut (a : Nat) (s : State) : Out :=
  if a < s.cfg.outCap then
    if s.busy then .next (s.replyUnspecified 0xFF)
    else .next (s.reply ((s.outSeen a).setWidth 32))
  else .fault (.noSuchOffset .output a)

/-- A host write of `OUT` while not BUSY (44_host.md R183, 20_memory.md R73). -/
def hostWriteOut (a : Nat) (b : Byte) (s : State) : Out :=
  if s.busy then .refused .hostWriteWhileBusy
  else if a < s.cfg.outCap then
    .next { s with outMem := s.outMem.write a b, outHost := addOffset s.outHost a }
  else .fault (.noSuchOffset .output a)

end Sys2Proof.Machine
end

