-- ==== Sys2Proof/Machine/Literal.lean ====
section
/-! DEFINITION. LIT: the literal token (43_literal.md). -/
namespace Sys2Proof.Machine

/-- LIT (43_literal.md R170): the byte goes unchanged (R171) to `OUT[op]`, and the token is complete. -/
def execLit (b : Byte) (s : State) : Out :=
  whenSelected .l8 s <|
    match s.beforeFetch .l8 with
    | some t => .next t
    | none => .next (({ s with ip := s.ip + 1 } : State).emit b).afterToken

end Sys2Proof.Machine
end

