-- ==== Sys2Proof/Machine/Dispatch.lean ====
section
/-! DEFINITION. exec: one arm per instruction, each one call of its meaning. -/
namespace Sys2Proof.Machine

def exec (i : Instr) (s : State) : Host.Outcome State Fault Refusal :=
  match i with
  | .hdr tag size => Sys2Proof.Machine.execHdr tag size s
  | .ctrl flags => Sys2Proof.Machine.execCtrl flags s
  | .lit b => Sys2Proof.Machine.execLit b s
  | .bref count disp => Sys2Proof.Machine.execBref count disp s
  | .start x => Sys2Proof.Machine.execStart x s

end Sys2Proof.Machine
end

