-- ==== Sys2Proof/Machine/Engine.lean ====
section
/-! DEFINITION. Who acts in a step and what it does: fetching an element, one engine step, one host move, and the
turn of the two; also where an instruction is placed to be run next. -/
namespace Sys2Proof.Machine

/-- Where in `IN` the next element stands: the header at offset 0 (20_memory.md R70), all others at the cursor. -/
def State.fetchOffset (f : Format) (s : State) : Nat :=
  match f with
  | .h32 => 0
  | .c8 => s.ip.toNat
  | .l8 => s.ip.toNat
  | .b16 => s.ip.toNat
  | .reg32 => s.ip.toNat

/-- The bytes of the next element, of the format the state selects (30_encoding.md R87). -/
def State.fetchBytes (f : Format) (s : State) : Option (List Byte) :=
  s.readIn (s.fetchOffset f) f.bytes

/-- Fetch, decode and execute the element of a format. -/
def runElement (f : Format) (s : State) : Out :=
  match s.fetchBytes f with
  | none => .fault (.noSuchOffset .input (s.fetchOffset f))
  | some bytes =>
    match decode f bytes with
    | .ok (i, _) => exec i s
    | .error _ => .refused .neverProduced

/-- A step that consumes an element (CHECK, CTRL or TOKEN): what comes before the fetch, else the element. -/
def elementStep (s : State) : Out :=
  match s.selected with
  | none => .refused .neverProduced
  | some f =>
    match s.beforeFetch f with
    | some t => .next t
    | none => runElement f s

/-- One engine step (00_scope.md R7). "In IDLE, DONE and ERROR the engine takes no step" (10_state.md R20): the
state stays as it is (log entry 11). -/
def engineStep (s : State) : Out :=
  match s.st with
  | .idle => .next s
  | .done => .next s
  | .error => .next s
  | .copy => copyStep s
  | .check => elementStep s
  | .ctrl => elementStep s
  | .token => elementStep s

/-- A host write to CMD: the value is a START or does nothing (10_state.md R34). -/
def hostWriteCmd (w : Word) (s : State) : Out :=
  match decode .reg32 (bytesOfWord w) with
  | .ok (i, _) => exec i s
  | .error _ => .next s

/-- A host write to a register (44_host.md R182). -/
def hostWrite (n : Nat) (w : Word) (s : State) : Out :=
  if n = 0 then hostWriteCmd w s else hostWriteReg n w s

/-- One move of the host, on the state with the move taken off the list. -/
def hostStep (m : HostMove) (s : State) : Out :=
  match m with
  | .reset => .next s.resetSignal
  | .readReg n => hostReadReg n s
  | .writeReg n w => hostWrite n w s
  | .readIn a => hostReadIn a s
  | .writeIn a b => hostWriteIn a b s
  | .readOut a => hostReadOut a s
  | .writeOut a b => hostWriteOut a b s
  | .pass => engineStep s
  | .await => hostReadReg 1 s

/-- Whose turn it is. The host's next move comes first, and with none pending the engine steps; an `await` stays
pending, and the engine steps, until BUSY = 0 (70_reset_and_hazards.md R232 step 5). -/
def agentStep (s : State) : Out :=
  match s.host with
  | [] => engineStep s
  | m :: ms =>
    if m = .await ∧ s.busy = true then engineStep s
    else hostStep m { s with host := ms }

/-- Write bytes to `IN` from an offset up. -/
def Memory.load (m : Memory) (a : Nat) : List Byte → Memory
  | [] => m
  | b :: bs => Memory.load (m.write a b) (a + 1) bs

/-- The state with bytes at offset `a` of `IN` as the whole rest of the input, and no host move pending. -/
def State.placeAt (s : State) (a : Nat) (bs : List Byte) : State :=
  { s with
    inMem := s.inMem.load a bs
    inLen := BitVec.ofNat 32 (a + bs.length)
    host := [] }

/-- The state with room in the output: as it is where the output is short of `size`, else an empty output of the
largest size. -/
def State.withRoom (s : State) : State :=
  if s.complete then { s with op := 0, size := 0xFFFFFF } else s

/-- The state in which the next step fetches and runs the element these bytes are, or the CMD write for REG32; for
a token the control byte has the one flag that selects it. -/
def State.placed (s : State) (f : Format) (w : Nat) (bs : List Byte) : State :=
  match f with
  | .h32 => { s.placeAt 0 bs with st := .check }
  | .c8 => { (s.placeAt s.ip.toNat bs).withRoom with st := .ctrl }
  | .l8 => { (s.placeAt s.ip.toNat bs).withRoom with st := .token, ctrl := 0x00, flagIdx := 0 }
  | .b16 => { (s.placeAt s.ip.toNat bs).withRoom with st := .token, ctrl := 0x80, flagIdx := 0 }
  | .reg32 => { s with host := .writeReg 0 (BitVec.ofNat 32 w) :: s.host }

/-- The state in which the next step runs the instruction of an opcode-table word (log entry 10). -/
def State.placeTableWord (s : State) (nbits w : Nat) : State :=
  match tableFormat nbits w with
  | none => s
  | some f => s.placed f w (tableBytes nbits w)

end Sys2Proof.Machine
end

