-- ==== Sys2Proof/Machine/Step.lean ====
section
/-! DEFINITION. step, and the state in which step runs a given opcode-table word. -/
namespace Sys2Proof.Machine

/-- One step of the machine: one move of the host or one step of the engine. -/
def step (s : State) : Host.Outcome State Fault Refusal := agentStep s

/-- `s` with the instruction of an opcode-table word where `step` takes its next instruction from. -/
def State.withFetchWord (s : State) (nbits w : Nat) : State := s.placeTableWord nbits w

end Sys2Proof.Machine
end

