-- ==== Sys2Proof/Machine/Reference.lean ====
section
/-! DEFINITION. The reference function `LZ10Decode` (41_control.md R127), over the input bytes alone. It shares
nothing with the step machine but the bit-field extractor, the byte orders and the flag order. -/
namespace Sys2Proof.Machine

/-- The cursor and the output of the reference function, or the kind it fails with. -/
abbrev RefResult := Except ErrCode (Nat × List Byte)

/-- `repeat n times: out.append(out[len(out) - disp])`, re-read after every byte. -/
def refCopy : Nat → Nat → List Byte → List Byte
  | 0, _, out => out
  | n + 1, disp, out => refCopy n disp (out ++ [out.getD (out.length - disp) 0])

/-- One token, selected by its flag. -/
def refToken (inp : List Byte) (size : Nat) (flag : Bool) (i : Nat) (out : List Byte) : RefResult :=
  if flag then
    if inp.length - i < 2 then .error .truncatedInput
    else
      let e := extract (bigEndian16 (inp.getD i 0) (inp.getD (i + 1) 0))
      if out.length < e.2.toNat then .error .invalidBackReference
      else .ok (i + 2, refCopy (min e.1.toNat (size - out.length)) e.2.toNat out)
  else if inp.length ≤ i then .error .truncatedInput
  else .ok (i + 1, out ++ [inp.getD i 0])

/-- The tokens of one group, left as soon as the output has reached `size`. -/
def refTokens (inp : List Byte) (size : Nat) : List Bool → Nat → List Byte → RefResult
  | [], i, out => .ok (i, out)
  | flag :: flags, i, out =>
    match refToken inp size flag i out with
    | .error e => .error e
    | .ok (i', out') => if size ≤ out'.length then .ok (i', out') else refTokens inp size flags i' out'

/-- `while len(out) < size`: every round reads a control byte, so as many rounds as there are input bytes, and one
more, are enough fuel. -/
def refGroups (inp : List Byte) (size : Nat) : Nat → Nat → List Byte → RefResult
  | 0, _, _ => .error .truncatedInput
  | fuel + 1, i, out =>
    if size ≤ out.length then .ok (i, out)
    else if inp.length ≤ i then .error .truncatedInput
    else
      match refTokens inp size (flagsOf (inp.getD i 0)) (i + 1) out with
      | .error e => .error e
      | .ok (i', out') => refGroups inp size fuel i' out'

/-- `LZ10Decode(in)` with the final cursor `i` beside the output (41_control.md R127). -/
def lz10Decode (maxInput : Nat) (inp : List Byte) : RefResult :=
  if inp.length < 4 then .error .tooSmall
  else if maxInput < inp.length then .error .tooLarge
  else if inp.getD 0 0 = 0x10 then
    refGroups inp (littleEndian24 (inp.getD 1 0) (inp.getD 2 0) (inp.getD 3 0)).toNat
      (inp.length + 1) 4 []
  else .error .invalidTag

end Sys2Proof.Machine
end

