-- ==== Sys2Proof/Safety.lean ====
section
/-! DEFINITION. The terms claims use: the invariant of every state a run reaches, the result of a run, the input a
run reads, and runs of the engine with the host leaving it alone. -/
namespace Sys2Proof.Machine

/-- The result of a run: bytes or a failure kind (00_scope.md R8). -/
inductive Result where
  | done (bytes : List Byte)
  | fail (kind : ErrCode)
  deriving DecidableEq, Repr

/-- The result the host takes (44_host.md R184): `OUT[0..OUT_LEN − 1]` in DONE, the failure kind and no bytes in
ERROR, none before. -/
def State.result (s : State) : Option Result :=
  match s.st with
  | .done => some (.done ((List.range s.op.toNat).map s.outByte))
  | .error => some (.fail s.errcode)
  | .idle => none
  | .check => none
  | .ctrl => none
  | .token => none
  | .copy => none

/-- The result the reference function gives (41_control.md R127). -/
def refResult (r : RefResult) : Result :=
  match r with
  | .ok (_, out) => .done out
  | .error e => .fail e

/-- The compressed buffer, `IN[0..inLen−1]`. -/
def State.input (s : State) : List Byte := (List.range s.inLen.toNat).map s.inByte

/-- The state a START leaves and a run begins in (44_host.md R180), with the host leaving the engine alone. -/
structure State.Started (s : State) : Prop where
  check : s.st = .check
  errcode : s.errcode = .none
  size : s.size = 0
  ip : s.ip = 0
  op : s.op = 0
  ctrl : s.ctrl = 0
  flagIdx : s.flagIdx = 0
  disp : s.disp = 0
  rem : s.rem = 0
  host : s.host = []

/-- The buffer's header was accepted and the cursor is inside the token stream: 10_state.md R44 (b). -/
structure State.Streaming (s : State) : Prop where
  inLen_ge : 4 ≤ s.inLen.toNat
  inLen_le : s.inLen.toNat ≤ s.cfg.maxInput
  tag : s.inByte 0 = formatTag
  ip_ge : 4 ≤ s.ip.toNat
  ip_le : s.ip.toNat ≤ s.inLen.toNat

/-- What holds in every state the machine reaches from reset (10_state.md R44 and the rules it is derived from),
the host's moves included. Clause (b) of R44 is whole for CTRL, TOKEN and COPY. For DONE it has what no move of the
host can undo; the whole of it holds when the engine enters DONE and until the host rewrites the input
(`State.rewritesInput`, log entry 6). -/
structure State.Inv (s : State) : Prop where
  cfg_ok : s.cfg.ok
  inMem_wf : s.inMem.wf
  outMem_wf : s.outMem.wf
  inMem_cap : ∀ c ∈ s.inMem, c.1 < s.cfg.inCap
  outMem_cap : ∀ c ∈ s.outMem, c.1 < s.cfg.outCap
  outHost_rising : s.outHost.Pairwise (· < ·)
  outHost_listed : ∀ a ∈ s.outHost, s.outMem.read a ≠ none
  outHost_busy : s.busy = true → s.outHost = []
  op_le_size : s.op.toNat ≤ s.size.toNat
  out_listed : ∀ a < s.op.toNat, s.outMem.read a ≠ none
  flagIdx_le : s.flagIdx.toNat ≤ 8
  errcode_iff : s.st = .error ↔ s.errcode ≠ .none
  check : s.st = .check → s.size = 0 ∧ s.ip = 0 ∧ s.op = 0 ∧ s.ctrl = 0 ∧ s.flagIdx = 0 ∧ s.disp = 0 ∧ s.rem = 0
  ctrl : s.st = .ctrl → s.Streaming ∧
    ((s.flagIdx = 8 ∧ s.op.toNat < s.size.toNat) ∨ (s.flagIdx = 0 ∧ s.ctrl = 0 ∧ s.ip = 4 ∧ s.op = 0))
  token : s.st = .token → s.Streaming ∧ s.flagIdx.toNat ≤ 7 ∧ s.op.toNat < s.size.toNat
  copy : s.st = .copy → s.Streaming ∧ s.copyReady = true ∧ s.rem.toNat ≤ 18 ∧ s.disp.toNat ≤ 4096
  done : s.st = .done → s.op = s.size ∧ 4 ≤ s.ip.toNat ∧ s.ip.toNat ≤ s.cfg.maxInput

/-- The host's next move writes what 10_state.md R44 (b) speaks of, IN_LEN or `IN[0]`: in DONE "the host may read and
write any byte of `IN`" (44_host.md R183) and write IN_LEN (10_state.md R35). -/
def State.rewritesInput (s : State) : Bool :=
  match s.host with
  | .writeReg n _ :: _ => n == 3
  | .writeIn a _ :: _ => a == 0
  | _ => false

/-- A host move the spec gives the host in this state: no write to `IN` or `OUT` while BUSY (20_memory.md R73), and no
access outside a memory. -/
def State.allows (s : State) : HostMove → Bool
  | .reset => true
  | .readReg _ => true
  | .writeReg _ _ => true
  | .readIn a => decide (a < s.cfg.inCap)
  | .writeIn a _ => !s.busy && decide (a < s.cfg.inCap)
  | .readOut a => decide (a < s.cfg.outCap)
  | .writeOut a _ => !s.busy && decide (a < s.cfg.outCap)
  | .pass => true
  | .await => true

/-- The host's moves that load a buffer into `IN` from offset `a` up. -/
def loadMoves : Nat → List Byte → List HostMove
  | _, [] => []
  | a, b :: bs => .writeIn a b :: loadMoves (a + 1) bs

/-- The decode operation as the host performs it (44_host.md R185, 70_reset_and_hazards.md R232): load `IN`, write
IN_LEN, write START, wait until BUSY = 0. -/
def decodeMoves (inp : List Byte) : List HostMove :=
  loadMoves 0 inp ++ [.writeReg 3 (BitVec.ofNat 32 inp.length), .writeReg 0 1, .await]

/-- The next move of the host, if one is pending, is one the spec gives it. -/
def State.hostAllowed (s : State) : Bool :=
  match s.host with
  | [] => true
  | m :: _ => s.allows m

end Sys2Proof.Machine
end

