-- ==== Sys2Proof/Certificates/Slice0/Obligations.lean ====
section
/-! DEFINITION. The statements for the provers, one `def Obligations.<Name> : Prop` each. -/

open Sys2Proof Sys2Proof.Machine

/-! ### Encoding -/

/-- 30_encoding.md sections 1, 2 and 5: decoding the bytes of any well-formed instruction gives it back, with the
bytes after it untouched. START's four bytes are the model's choice (log entry 14). -/
def Obligations.DecodeOfEncode : Prop :=
  ∀ (i : Instr) (rest : List Byte), i.wf = true → decode i.format (encode i ++ rest) = .ok (i, rest)

/-- 30_encoding.md sections 1 and 2: what the decoder reads, encoded, is the bytes it read; it drops no bit. START's
four bytes are the model's choice (log entry 14). -/
def Obligations.EncodeOfDecode : Prop :=
  ∀ (f : Format) (bs rest : List Byte) (i : Instr), decode f bs = .ok (i, rest) →
    i.format = f ∧ encode i ++ rest = bs ∧ bs.length = f.bytes + rest.length

/-- R89: the only illegal encoding is a header whose byte 0 is not 0x10, and it fails InvalidTag; every other
element, of enough bytes, decodes to a legal instruction. -/
def Obligations.OnlyWrongTagIsIllegal : Prop :=
  (∀ (f : Format) (bs : List Byte), f ≠ .reg32 → f.bytes ≤ bs.length → ∃ i rest, decode f bs = .ok (i, rest)) ∧
  (∀ (f : Format) (bs rest : List Byte) (i : Instr), decode f bs = .ok (i, rest) →
    (i.wf = false ↔ ∃ tag size, i = .hdr tag size ∧ tag ≠ 0x10)) ∧
  (∀ (tag : Byte) (size : BitVec 24) (s : State), s.st = .check → 4 ≤ s.inLen.toNat →
    s.inLen.toNat ≤ s.cfg.maxInput → tag ≠ 0x10 →
    exec (.hdr tag size) s = .next { s with errcode := .invalidTag, st := .error })

/-- R140: `Extract` gives count `(v >> 12) + 3` in 3..18 and displacement `(v & 0xFFF) + 1` in 1..4096, is a
bijection onto the pairs in range, and has the rule's example values. -/
def Obligations.ExtractIsTheBijection : Prop :=
  (∀ v : BitVec 16,
    (extract v).1.toNat = v.toNat / 4096 + 3 ∧ (extract v).2.toNat = v.toNat % 4096 + 1 ∧
    3 ≤ (extract v).1.toNat ∧ (extract v).1.toNat ≤ 18 ∧ 1 ≤ (extract v).2.toNat ∧ (extract v).2.toNat ≤ 4096) ∧
  (∀ count disp : Nat, 3 ≤ count → count ≤ 18 → 1 ≤ disp → disp ≤ 4096 →
    ∃! v : BitVec 16, (extract v).1.toNat = count ∧ (extract v).2.toNat = disp) ∧
  extract 0x0000 = (3, 1) ∧ extract 0xFFFF = (18, 4096) ∧ extract 0x4142 = (7, 323) ∧ extract 0x3002 = (6, 3) ∧
  extract 0x7000 = (10, 1) ∧ extract 0x0FFF = (3, 4096) ∧ extract 0xF000 = (18, 1)

/-- 95_test_vectors.md E1, H7, 2.2, 2.3: words of the stream written out from the spec decode to the instructions they
stand for. The last clause, START's, is the model's choice: that a CMD value is decoded as four bytes, most significant
first, is log entry 14; of the spec is only that bit 0 set is START (10_state.md section 3). -/
def Obligations.SampleWordsDecode : Prop :=
  decode .h32 [0x10, 0x05, 0x00, 0x00] = .ok (.hdr 0x10 5, []) ∧
  decode .h32 [0x10, 0x56, 0x34, 0x12] = .ok (.hdr 0x10 0x123456, []) ∧
  decode .c8 [0xA5] = .ok (.ctrl 0xA5, []) ∧
  decode .l8 [0x41, 0x42] = .ok (.lit 0x41, [0x42]) ∧
  decode .b16 [0x41, 0x42] = .ok (.bref 7 323, []) ∧
  decode .b16 [0xFF, 0xFF] = .ok (.bref 18 4096, []) ∧
  decode .reg32 [0x00, 0x00, 0x00, 0x01] = .ok (.start 0, [])

/-- R123: the flags of a control byte are its bits, most significant first; the next token's flag is the one at
`flagIdx`. -/
def Obligations.FlagsAreMostSignificantFirst : Prop :=
  (∀ (c : Byte) (k : Nat), k < 8 → (flagsOf c)[k]? = some (c.getLsbD (7 - k))) ∧
  (∀ c : Byte, (flagsOf c).length = 8) ∧
  (∀ s : State, s.flagIdx.toNat ≤ 7 → (flagsOf s.ctrl)[s.flagIdx.toNat]? = some s.tokenFlag) ∧
  flagsOf 0xA5 = [true, false, true, false, false, true, false, true] ∧
  flagsOf 0x80 = [true, false, false, false, false, false, false, false]

/-! ### HDR: the CHECK step -/

/-- R101: an input of less than 4 bytes fails TooSmall, whatever the bytes. -/
def Obligations.ShortInputFailsTooSmall : Prop :=
  ∀ s : State, s.host = [] → s.st = .check → s.inLen.toNat < 4 →
    step s = .next { s with errcode := .tooSmall, st := .error }

/-- R102: an input longer than `MAX_INPUT` fails TooLarge, whatever the bytes, its tag included; one of exactly
`MAX_INPUT` bytes with the tag passes. -/
def Obligations.LongInputFailsTooLarge : Prop :=
  (∀ s : State, s.host = [] → s.st = .check → 4 ≤ s.inLen.toNat → s.cfg.maxInput < s.inLen.toNat →
    step s = .next { s with errcode := .tooLarge, st := .error }) ∧
  (∀ s : State, s.host = [] → s.st = .check → 4 ≤ s.inLen.toNat → s.inLen.toNat = s.cfg.maxInput →
    s.inByte 0 = 0x10 → ∃ t, step s = .next t ∧ t.st = .ctrl ∧ t.errcode = s.errcode)

/-- R103: with both length checks passed, a first byte other than 0x10 fails InvalidTag, whatever follows it. -/
def Obligations.WrongTagFailsInvalidTag : Prop :=
  ∀ s : State, s.host = [] → s.st = .check → 4 ≤ s.inLen.toNat → s.inLen.toNat ≤ s.cfg.maxInput →
    s.inByte 0 ≠ 0x10 → step s = .next { s with errcode := .invalidTag, st := .error }

/-- R105: the failure reported is the first of the three checks, in the rule's order, that fails; no input is both too
small and too large. -/
def Obligations.FirstFailingCheckIsReported : Prop :=
  ∀ s : State, s.cfg.ok → s.host = [] → s.st = .check → s.errcode = .none →
    ¬(s.inLen.toNat < 4 ∧ s.cfg.maxInput < s.inLen.toNat) ∧
    ∃ t, step s = .next t ∧
      t.errcode =
        ((([(decide (s.inLen.toNat < 4), ErrCode.tooSmall),
            (decide (s.cfg.maxInput < s.inLen.toNat), ErrCode.tooLarge),
            (decide (s.inByte 0 ≠ 0x10), ErrCode.invalidTag)].find? (·.1)).map (·.2)).getD .none) ∧
      (t.st = .error ↔ t.errcode ≠ .none)

/-- R104, with the byte order of R63: the size is the little-endian value of `IN[1..3]`, the cursor goes to 4, the
output is empty, and the next step is CTRL; every size is taken, 0 among them. -/
def Obligations.HeaderIsParsed : Prop :=
  ∀ s : State, s.host = [] → s.st = .check → 4 ≤ s.inLen.toNat → s.inLen.toNat ≤ s.cfg.maxInput →
    s.inByte 0 = 0x10 →
    ∃ size : BitVec 24,
      size.toNat = (s.inByte 1).toNat + 256 * (s.inByte 2).toNat + 65536 * (s.inByte 3).toNat ∧
      step s = .next { s with size := size, ip := 4, op := 0, st := .ctrl }

/-- R107: a CHECK failure leaves size, cursor and output length at the 0 START gave them, and DECL_SIZE, IN_PTR and
OUT_LEN read 0. -/
def Obligations.FailedCheckReadsZero : Prop :=
  ∀ s t : State, s.host = [] → s.st = .check → s.size = 0 → s.ip = 0 → s.op = 0 →
    step s = .next t → t.st = .error →
    t.size = 0 ∧ t.ip = 0 ∧ t.op = 0 ∧ t.regValue 4 = 0 ∧ t.regValue 5 = 0 ∧ t.regValue 6 = 0

/-- 40_header.md R100: HDR with the tag completes in CHECK when the length is accepted, for every size; no ceiling is
put on it. -/
def Obligations.HdrCompletes : Prop :=
  ∀ (size : BitVec 24) (s : State), s.st = .check → 4 ≤ s.inLen.toNat → s.inLen.toNat ≤ s.cfg.maxInput →
    exec (.hdr 0x10 size) s = .next { s with size := size, ip := 4, op := 0, st := .ctrl }

/-! ### CTRL: the control-byte state machine -/

/-- R120: the CTRL step ends the run when the output is complete, fails TruncatedInput when it is not and no byte is
left, and else fetches the eight flags at once. -/
def Obligations.ControlByteFetch : Prop :=
  (∀ s : State, s.host = [] → s.st = .ctrl → s.size.toNat ≤ s.op.toNat → step s = .next { s with st := .done }) ∧
  (∀ s : State, s.host = [] → s.st = .ctrl → s.op.toNat < s.size.toNat → s.inLen.toNat ≤ s.ip.toNat →
    step s = .next { s with errcode := .truncatedInput, st := .error }) ∧
  (∀ s : State, s.host = [] → s.st = .ctrl → s.op.toNat < s.size.toNat → s.ip.toNat < s.inLen.toNat →
    s.inLen.toNat ≤ s.cfg.maxInput →
    step s = .next { s with ctrl := s.inByte s.ip.toNat, ip := s.ip + 1, flagIdx := 0, st := .token }) ∧
  flagsOf 0x00 = List.replicate 8 false ∧ flagsOf 0xFF = List.replicate 8 true

/-- 41_control.md R120: CTRL completes where the output is short of `size` and a byte is left, for every value of the
byte. -/
def Obligations.CtrlCompletes : Prop :=
  ∀ (flags : Byte) (s : State), s.st = .ctrl → s.op.toNat < s.size.toNat → s.ip.toNat < s.inLen.toNat →
    exec (.ctrl flags) s = .next { s with ctrl := flags, ip := s.ip + 1, flagIdx := 0, st := .token }

/-- R122: the TOKEN step is the BREF fetch when the flag `ctrl[7 − flagIdx]` is 1 and LIT when it is 0, on the bytes
at the cursor; with too few bytes it fails TruncatedInput. The fetch of a back-reference does not use up its flag. -/
def Obligations.FlagSelectsTheToken : Prop :=
  ∀ s : State, s.host = [] → s.st = .token → s.flagIdx.toNat ≤ 7 → s.op.toNat < s.size.toNat →
    s.inLen.toNat ≤ s.cfg.maxInput →
    (s.ctrl.getLsbD (7 - s.flagIdx.toNat) = true → s.ip.toNat + 2 ≤ s.inLen.toNat →
      step s = exec (.bref (extract (s.inByte s.ip.toNat ++ s.inByte (s.ip.toNat + 1))).1
        (extract (s.inByte s.ip.toNat ++ s.inByte (s.ip.toNat + 1))).2) s) ∧
    (s.ctrl.getLsbD (7 - s.flagIdx.toNat) = true → s.inLen.toNat < s.ip.toNat + 2 →
      step s = .next { s with errcode := .truncatedInput, st := .error }) ∧
    (s.ctrl.getLsbD (7 - s.flagIdx.toNat) = true → ∀ t, step s = .next t → t.flagIdx = s.flagIdx) ∧
    (s.ctrl.getLsbD (7 - s.flagIdx.toNat) = false → s.ip.toNat < s.inLen.toNat →
      step s = exec (.lit (s.inByte s.ip.toNat)) s) ∧
    (s.ctrl.getLsbD (7 - s.flagIdx.toNat) = false → s.inLen.toNat ≤ s.ip.toNat →
      step s = .next { s with errcode := .truncatedInput, st := .error })

/-- R124: the step that completes a token, a LIT or the last COPY, uses one flag and goes to DONE when the output has
reached `size`, else to CTRL when that was the eighth flag, else to TOKEN. -/
def Obligations.TokenEndUpdatesTheSequencer : Prop :=
  ∀ s t : State,
    ((∃ b, exec (.lit b) s = .next t ∧ t.st ≠ .error) ∨
      (s.host = [] ∧ s.st = .copy ∧ s.rem = 1 ∧ step s = .next t)) →
    t.flagIdx.toNat = s.flagIdx.toNat + 1 ∧ t.op.toNat = s.op.toNat + 1 ∧
    t.st = (if t.size.toNat ≤ t.op.toNat then .done else if t.flagIdx.toNat = 8 then .ctrl else .token)

/-- 41_control.md R121: from a state a run reaches, the output never passes `size`; the step that brings it to `size`
by a token ends the run, and a run that is DONE has exactly `size` bytes. -/
def Obligations.RunEndsExactlyAtSize : Prop :=
  ∀ s t : State, s.Inv → s.host = [] → step s = .next t →
    t.op.toNat ≤ t.size.toNat ∧ (t.st = .done → t.op = t.size) ∧
    (s.st = .token ∨ s.st = .copy → t.op = t.size → t.st = .done)

/-! ### LIT -/

/-- R170, with R171: a LIT step fails TruncatedInput when no byte is left, and else puts the input byte unchanged at
`OUT[op]`, advances cursor and output length by 1 and completes the token. -/
def Obligations.LiteralStep : Prop :=
  ∀ s : State, s.host = [] → s.st = .token → s.flagIdx.toNat ≤ 7 → s.op.toNat < s.size.toNat →
    s.inLen.toNat ≤ s.cfg.maxInput → s.ctrl.getLsbD (7 - s.flagIdx.toNat) = false →
    (s.inLen.toNat ≤ s.ip.toNat → step s = .next { s with errcode := .truncatedInput, st := .error }) ∧
    (s.ip.toNat < s.inLen.toNat → ∃ t, step s = .next t ∧
      t.outByte s.op.toNat = s.inByte s.ip.toNat ∧
      t = { s with
        outMem := t.outMem, ip := s.ip + 1, op := s.op + 1, flagIdx := s.flagIdx + 1
        st := if s.size.toNat ≤ s.op.toNat + 1 then .done else if s.flagIdx.toNat + 1 = 8 then .ctrl else .token } ∧
      ∀ a, a ≠ s.op.toNat → t.outByte a = s.outByte a)

/-- 43_literal.md R170: LIT completes where the state selects it and a byte is left, for every byte. -/
def Obligations.LitCompletes : Prop :=
  ∀ (b : Byte) (s : State), s.st = .token → s.flagIdx.toNat ≤ 7 → s.op.toNat < s.size.toNat →
    s.ctrl.getLsbD (7 - s.flagIdx.toNat) = false → s.ip.toNat < s.inLen.toNat →
    exec (.lit b) s = .next { s with
      outMem := s.outMem.write s.op.toNat b, ip := s.ip + 1, op := s.op + 1, flagIdx := s.flagIdx + 1
      st := if s.size.toNat ≤ s.op.toNat + 1 then .done else if s.flagIdx.toNat + 1 = 8 then .ctrl else .token }

/-- 43_literal.md R170, the frame of LIT: it writes `st`, `errcode` (a failure), `ip`, `op`, `flagIdx` and the byte of
`OUT` at `op`; every other register, and every other byte of both memories, stays. -/
def Obligations.LitFrame : Prop :=
  ∀ (b : Byte) (s t : State), exec (.lit b) s = .next t →
    t = { s with st := t.st, errcode := t.errcode, ip := t.ip, op := t.op, flagIdx := t.flagIdx, outMem := t.outMem } ∧
    (∀ a, t.inByte a = s.inByte a) ∧ (∀ a, a ≠ s.op.toNat → t.outByte a = s.outByte a) ∧
    (t.st = .error → ∀ a, t.outByte a = s.outByte a)

/-! ### BREF and COPY -/

/-- R141, with the byte order of R64: the BREF fetch fails TruncatedInput with less than 2 bytes left, then
InvalidBackReference when the displacement exceeds the output length, and else consumes both bytes and sets up a copy
of at least one byte. -/
def Obligations.BackReferenceFetch : Prop :=
  ∀ (s : State) (v : BitVec 16), s.host = [] → s.st = .token → s.flagIdx.toNat ≤ 7 →
    s.op.toNat < s.size.toNat → s.inLen.toNat ≤ s.cfg.maxInput → s.ctrl.getLsbD (7 - s.flagIdx.toNat) = true →
    v.toNat = 256 * (s.inByte s.ip.toNat).toNat + (s.inByte (s.ip.toNat + 1)).toNat →
    (s.inLen.toNat - s.ip.toNat < 2 → step s = .next { s with errcode := .truncatedInput, st := .error }) ∧
    (2 ≤ s.inLen.toNat - s.ip.toNat → s.op.toNat < v.toNat % 4096 + 1 →
      step s = .next { s with errcode := .invalidBackReference, st := .error }) ∧
    (2 ≤ s.inLen.toNat - s.ip.toNat → v.toNat % 4096 + 1 ≤ s.op.toNat →
      step s = .next { s with
        ip := s.ip + 2
        disp := BitVec.ofNat 13 (v.toNat % 4096 + 1)
        rem := BitVec.ofNat 5 (min (v.toNat / 4096 + 3) (s.size.toNat - s.op.toNat))
        st := .copy } ∧
      1 ≤ min (v.toNat / 4096 + 3) (s.size.toNat - s.op.toNat))

/-- 42_backref.md R141: BREF completes where the state selects it, two bytes are left and the displacement reaches no
further back than the output. -/
def Obligations.BrefCompletes : Prop :=
  ∀ (count : BitVec 5) (disp : BitVec 13) (s : State), s.st = .token → s.flagIdx.toNat ≤ 7 →
    s.op.toNat < s.size.toNat → s.ctrl.getLsbD (7 - s.flagIdx.toNat) = true →
    2 ≤ s.inLen.toNat - s.ip.toNat → disp.toNat ≤ s.op.toNat →
    ∃ rem : BitVec 5, rem.toNat = min count.toNat (s.size.toNat - s.op.toNat) ∧
      exec (.bref count disp) s = .next { s with ip := s.ip + 2, disp := disp, rem := rem, st := .copy }

/-- 42_backref.md section 3 (R144): a displacement greater than the output length fails InvalidBackReference before any
byte is copied; one that passes stays within the output at every COPY step that follows, which the spec derives "from
rules R141 and R145". -/
def Obligations.FarDisplacementFails : Prop :=
  (∀ (count : BitVec 5) (disp : BitVec 13) (s : State), s.st = .token → s.flagIdx.toNat ≤ 7 →
    s.op.toNat < s.size.toNat → s.ctrl.getLsbD (7 - s.flagIdx.toNat) = true →
    2 ≤ s.inLen.toNat - s.ip.toNat → s.op.toNat < disp.toNat →
    exec (.bref count disp) s = .next { s with errcode := .invalidBackReference, st := .error }) ∧
  (∀ s t : State, s.host = [] → (s.st = .token ∨ s.st = .copy) → step s = .next t → t.st = .copy →
    t.disp.toNat ≤ t.op.toNat)

/-- R145: a COPY step appends the byte `disp` positions back; the last one completes the token, the others stay in
COPY. It cannot fail. -/
def Obligations.CopyStepAppendsOneByte : Prop :=
  ∀ s : State, s.host = [] → s.st = .copy → 1 ≤ s.rem.toNat → s.rem.toNat ≤ s.size.toNat - s.op.toNat →
    1 ≤ s.disp.toNat → s.disp.toNat ≤ s.op.toNat → s.flagIdx.toNat ≤ 7 →
    (s.rem ≠ 1 → step s = .next { s with
      outMem := s.outMem.write s.op.toNat (s.outByte (s.op.toNat - s.disp.toNat))
      op := s.op + 1, rem := s.rem - 1, st := .copy }) ∧
    (s.rem = 1 → step s = .next { s with
      outMem := s.outMem.write s.op.toNat (s.outByte (s.op.toNat - s.disp.toNat))
      op := s.op + 1, rem := 0, flagIdx := s.flagIdx + 1
      st := if s.size.toNat ≤ s.op.toNat + 1 then .done else if s.flagIdx.toNat + 1 = 8 then .ctrl else .token })

/-- 42_backref.md section 3 (R143), under the invariant the spec derives: in a state a run reaches, the window reader
reads `OUT[op − disp]`, an offset below `op` that this run or the host has written, no further back than 4096. -/
def Obligations.WindowReadStaysInTheWindow : Prop :=
  ∀ s : State, s.Inv → s.st = .copy →
    s.windowRead = s.outByte (s.op.toNat - s.disp.toNat) ∧ 1 ≤ s.disp.toNat ∧ s.disp.toNat ≤ min s.op.toNat 4096 ∧
    s.op.toNat - s.disp.toNat < s.op.toNat ∧ s.outMem.read (s.op.toNat - s.disp.toNat) ≠ none

/-- 42_backref.md R146, which the spec derives from R145 "by induction on j": a copy of `rem` bytes with displacement
`disp` writes the byte at `op − disp + (j mod disp)` to `op + j`, the output as it was before the copy; it leaves the
rest alone and ends the token. -/
def Obligations.OverlappingCopyRepeatsThePeriod : Prop :=
  ∀ s : State, s.host = [] → s.st = .copy → 1 ≤ s.rem.toNat → s.rem.toNat ≤ s.size.toNat - s.op.toNat →
    1 ≤ s.disp.toNat → s.disp.toNat ≤ s.op.toNat → s.flagIdx.toNat ≤ 7 →
    ∃ t, Host.Core.run core s.rem.toNat s = .next t ∧
      (∀ j < s.rem.toNat,
        State.outByte t (s.op.toNat + j) = s.outByte (s.op.toNat - s.disp.toNat + j % s.disp.toNat)) ∧
      (∀ a, a < s.op.toNat ∨ s.op.toNat + s.rem.toNat ≤ a → State.outByte t a = s.outByte a) ∧
      (State.op t).toNat = s.op.toNat + s.rem.toNat ∧ (State.flagIdx t).toNat = s.flagIdx.toNat + 1 ∧
      State.rem t = 0 ∧ State.st t ≠ .copy

/-- R142: a back-reference writes `min(count, size − op)` bytes, each the byte `disp` positions before it as in the full
copy, nothing at or above `OUT[size]`, and its two bytes are consumed in full. -/
def Obligations.CopyStopsAtTheDeclaredSize : Prop :=
  ∀ (s : State) (v : BitVec 16), s.host = [] → s.st = .token → s.flagIdx.toNat ≤ 7 →
    s.op.toNat < s.size.toNat → s.inLen.toNat ≤ s.cfg.maxInput → s.ctrl.getLsbD (7 - s.flagIdx.toNat) = true →
    v.toNat = 256 * (s.inByte s.ip.toNat).toNat + (s.inByte (s.ip.toNat + 1)).toNat →
    s.ip.toNat + 2 ≤ s.inLen.toNat → v.toNat % 4096 + 1 ≤ s.op.toNat →
    ∃ t, Host.Core.run core (1 + min (v.toNat / 4096 + 3) (s.size.toNat - s.op.toNat)) s = .next t ∧
      (State.op t).toNat = s.op.toNat + min (v.toNat / 4096 + 3) (s.size.toNat - s.op.toNat) ∧
      (State.ip t).toNat = s.ip.toNat + 2 ∧ State.st t ≠ .copy ∧ State.st t ≠ .error ∧
      (s.size.toNat - s.op.toNat ≤ v.toNat / 4096 + 3 → State.st t = .done) ∧
      (∀ j < min (v.toNat / 4096 + 3) (s.size.toNat - s.op.toNat),
        State.outByte t (s.op.toNat + j) = State.outByte t (s.op.toNat + j - (v.toNat % 4096 + 1))) ∧
      (∀ a, a < s.op.toNat ∨ s.size.toNat ≤ a → State.outByte t a = s.outByte a)

/-- 40_header.md R100, 41_control.md R120, 42_backref.md R141: the frame of the elements that store nothing. HDR writes
`size`, `ip`, `op`, `st` or a failure; CTRL writes `ctrl`, `ip`, `flagIdx`, `st` or a failure; BREF writes `ip`,
`disp`, `rem`, `st` or a failure; every byte of both memories stays. -/
def Obligations.NonStoringElementsFrame : Prop :=
  (∀ (tag : Byte) (size : BitVec 24) (s t : State), exec (.hdr tag size) s = .next t →
    t = { s with size := t.size, ip := t.ip, op := t.op, st := t.st, errcode := t.errcode } ∧
    ∀ a, t.inByte a = s.inByte a ∧ t.outByte a = s.outByte a) ∧
  (∀ (flags : Byte) (s t : State), exec (.ctrl flags) s = .next t →
    t = { s with ctrl := t.ctrl, ip := t.ip, flagIdx := t.flagIdx, st := t.st, errcode := t.errcode } ∧
    ∀ a, t.inByte a = s.inByte a ∧ t.outByte a = s.outByte a) ∧
  (∀ (count : BitVec 5) (disp : BitVec 13) (s t : State), exec (.bref count disp) s = .next t →
    t = { s with ip := t.ip, disp := t.disp, rem := t.rem, st := t.st, errcode := t.errcode } ∧
    ∀ a, t.inByte a = s.inByte a ∧ t.outByte a = s.outByte a)

/-- 41_control.md R120, 42_backref.md R141, 43_literal.md R170: where no byte, or one byte of a back-reference, is left,
CTRL, LIT and BREF fail TruncatedInput, the displacement of a back-reference not tested. -/
def Obligations.ElementsTrapOnTruncation : Prop :=
  (∀ (flags : Byte) (s : State), s.st = .ctrl → s.op.toNat < s.size.toNat → s.inLen.toNat ≤ s.ip.toNat →
    exec (.ctrl flags) s = .next { s with errcode := .truncatedInput, st := .error }) ∧
  (∀ (b : Byte) (s : State), s.st = .token → s.flagIdx.toNat ≤ 7 → s.op.toNat < s.size.toNat →
    s.ctrl.getLsbD (7 - s.flagIdx.toNat) = false → s.inLen.toNat ≤ s.ip.toNat →
    exec (.lit b) s = .next { s with errcode := .truncatedInput, st := .error }) ∧
  (∀ (count : BitVec 5) (disp : BitVec 13) (s : State), s.st = .token → s.flagIdx.toNat ≤ 7 →
    s.op.toNat < s.size.toNat → s.ctrl.getLsbD (7 - s.flagIdx.toNat) = true → s.inLen.toNat < s.ip.toNat + 2 →
    exec (.bref count disp) s = .next { s with errcode := .truncatedInput, st := .error })

/-! ### START and the host's registers -/

/-- R180: a write to CMD with bit 0 set begins a run where the engine is not BUSY, clearing the run's registers, and
is ignored while it is; with bit 0 clear it does nothing. (`outHost` and `runs` are the model's own fields.) -/
def Obligations.StartCommandBeginsARun : Prop :=
  ∀ (s : State) (w : Word) (ms : List HostMove), s.host = .writeReg 0 w :: ms →
    (w.getLsbD 0 = true → s.busy = false → step s = .next { s with
      errcode := .none, size := 0, ip := 0, op := 0, ctrl := 0, flagIdx := 0, disp := 0, rem := 0, st := .check
      outHost := [], runs := s.runs + 1, host := ms }) ∧
    (w.getLsbD 0 = true → s.busy = true → step s = .next { s with host := ms }) ∧
    (w.getLsbD 0 = false → step s = .next { s with host := ms })

/-- 44_host.md R180: START completes where the engine is not BUSY, whatever the ignored bits. -/
def Obligations.StartCompletes : Prop :=
  ∀ (x : BitVec 31) (s : State), s.st = .idle ∨ s.st = .done ∨ s.st = .error →
    exec (.start x) s = .next { s with
      errcode := .none, size := 0, ip := 0, op := 0, ctrl := 0, flagIdx := 0, disp := 0, rem := 0, st := .check
      outHost := [], runs := s.runs + 1 }

/-- 44_host.md R180, the frame of START: "`inLen` and the memories are not changed", nor the parameters, nor the host's
side; while BUSY nothing is. -/
def Obligations.StartFrame : Prop :=
  ∀ (x : BitVec 31) (s t : State), exec (.start x) s = .next t →
    t.inLen = s.inLen ∧ t.cfg = s.cfg ∧ t.inMem = s.inMem ∧ t.outMem = s.outMem ∧ t.host = s.host ∧
    t.replies = s.replies ∧ (∀ a, t.inByte a = s.inByte a ∧ t.outByte a = s.outByte a) ∧ (s.busy = true → t = s)

/-- R182: of all register writes only CMD with bit 0 set and IN_LEN while not BUSY have an effect. -/
def Obligations.OnlyTwoRegisterWritesHaveEffect : Prop :=
  ∀ (s : State) (n : Nat) (w : Word) (ms : List HostMove), s.host = .writeReg n w :: ms →
    (¬(n = 0 ∧ w.getLsbD 0 = true) → ¬(n = 3 ∧ s.busy = false) → step s = .next { s with host := ms }) ∧
    (n = 0 → w.getLsbD 0 = true → step s = exec (.start (w.extractLsb' 1 31)) { s with host := ms }) ∧
    (n = 3 → s.busy = false → step s = .next { s with inLen := w, host := ms })

/-- R35: IN_LEN takes any value while the engine is not BUSY, ignores a write while it is, and reads `inLen`; its reset
value is 0. -/
def Obligations.InLenIsReadWrite : Prop :=
  (∀ (s : State) (w : Word) (ms : List HostMove), s.host = .writeReg 3 w :: ms →
    step s = .next { s with inLen := if s.busy then s.inLen else w, host := ms }) ∧
  (∀ (s : State) (ms : List HostMove), s.host = .readReg 3 :: ms →
    step s = .next { s with replies := s.inLen :: s.replies, host := ms }) ∧
  State.reset.inLen = 0

/-- R36: STATUS shows the state's code in bits 2:0, BUSY in bit 4, DONE in bit 5, ERR in bit 6 and 0 elsewhere; a read
gives it at any time and a write is ignored; it is 0 at reset. -/
def Obligations.StatusShowsTheState : Prop :=
  (∀ s : State, s.statusWord.extractLsb' 0 3 = s.st.code ∧ s.statusWord.getLsbD 3 = false ∧
    (s.statusWord.getLsbD 4 = true ↔ s.st = .check ∨ s.st = .ctrl ∨ s.st = .token ∨ s.st = .copy) ∧
    (s.statusWord.getLsbD 5 = true ↔ s.st = .done) ∧ (s.statusWord.getLsbD 6 = true ↔ s.st = .error) ∧
    (∀ k, 7 ≤ k → s.statusWord.getLsbD k = false) ∧ (s.st = .idle → s.statusWord = 0)) ∧
  [St.idle, .check, .ctrl, .token, .copy, .done, .error].map St.code = [0, 1, 2, 3, 4, 5, 6] ∧
  (∀ (s : State) (ms : List HostMove), s.host = .readReg 1 :: ms →
    step s = .next { s with replies := s.statusWord :: s.replies, host := ms }) ∧
  (∀ (s : State) (w : Word) (ms : List HostMove), s.host = .writeReg 1 w :: ms →
    step s = .next { s with host := ms }) ∧
  State.reset.statusWord = 0

/-- R181: a register read returns one value and changes no register and no memory: the exact value for STATUS, ERRCODE,
IN_LEN and DECL_SIZE at any time and for the position registers while not BUSY; while BUSY those three return a free
value. -/
def Obligations.RegisterReadsHaveNoSideEffect : Prop :=
  ∀ (s : State) (n : Nat) (ms : List HostMove), s.host = .readReg n :: ms → s.flagIdx.toNat ≤ 8 →
    (¬(s.busy = true ∧ (n = 5 ∨ n = 6 ∨ n = 7)) →
      step s = .next { s with replies := s.regValue n :: s.replies, host := ms }) ∧
    (s.busy = true → (n = 5 ∨ n = 6 ∨ n = 7) →
      ∃ v, step s = .next { s with replies := v :: s.replies, draws := s.draws + 1, host := ms })

/-- 10_state.md section 3: what each register reads where the rules fix it, registers 8 and up read 0, and bits a
register does not define read 0. -/
def Obligations.RegisterMapHolds : Prop :=
  ∀ s : State,
    s.regValue 0 = 0 ∧ s.regValue 1 = s.statusWord ∧ (s.regValue 2).toNat = s.errcode.code.toNat ∧
    s.regValue 3 = s.inLen ∧ (s.regValue 4).toNat = s.size.toNat ∧ s.regValue 5 = s.ip ∧
    (s.regValue 6).toNat = s.op.toNat ∧ (s.regValue 7).toNat = 256 * s.flagIdx.toNat + s.ctrl.toNat ∧
    (∀ n, 8 ≤ n → s.regValue n = 0) ∧
    (∀ n k, (regMask n).getLsbD k = false → (s.regValue n).getLsbD k = false)

/-! ### The host's access to the memories, the result, reset -/

/-- 44_host.md R183, with log entry 4 for what the host sees of `OUT` (`outSeen`) and log entry 9 for the refused write:
while not BUSY the host reads and writes any byte of `IN` and `OUT`, and reads back what it wrote; while BUSY
it reads `IN`, a read of `OUT` gives a free value and changes nothing else, and it has no move that writes. -/
def Obligations.HostAccessesTheMemories : Prop :=
  (∀ (s : State) (a : Nat) (b : Byte) (ms : List HostMove), s.host = .writeIn a b :: ms → a < s.cfg.inCap →
    (s.busy = false → ∃ t, step s = .next t ∧ t = { s with inMem := t.inMem, host := ms } ∧ t.inByte a = b ∧
      ∀ k, k ≠ a → t.inByte k = s.inByte k) ∧
    (s.busy = true → step s = .refused .hostWriteWhileBusy)) ∧
  (∀ (s : State) (a : Nat) (ms : List HostMove), s.host = .readIn a :: ms → a < s.cfg.inCap →
    step s = .next { s with replies := (s.inByte a).setWidth 32 :: s.replies, host := ms }) ∧
  (∀ (s : State) (a : Nat) (b : Byte) (ms : List HostMove), s.host = .writeOut a b :: ms → a < s.cfg.outCap →
    (s.busy = false → ∃ t, step s = .next t ∧ t = { s with outMem := t.outMem, outHost := t.outHost, host := ms } ∧
      t.outByte a = b ∧ t.outSeen a = b ∧ ∀ k, k ≠ a → t.outByte k = s.outByte k ∧ t.outSeen k = s.outSeen k) ∧
    (s.busy = true → step s = .refused .hostWriteWhileBusy)) ∧
  (∀ (s : State) (a : Nat) (ms : List HostMove), s.host = .readOut a :: ms → a < s.cfg.outCap →
    (s.busy = false → step s = .next { s with replies := (s.outSeen a).setWidth 32 :: s.replies, host := ms }) ∧
    (s.busy = true → ∃ v, step s = .next { s with replies := v :: s.replies, draws := s.draws + 1, host := ms }))

/-- 20_memory.md section 1: an access of the host at or above a memory's capacity is a fault. -/
def Obligations.OffsetsOutsideAMemoryFault : Prop :=
  (∀ (s : State) (a : Nat) (ms : List HostMove), s.host = .readIn a :: ms → s.cfg.inCap ≤ a →
    step s = .fault (.noSuchOffset .input a)) ∧
  (∀ (s : State) (a : Nat) (b : Byte) (ms : List HostMove), s.host = .writeIn a b :: ms → s.busy = false →
    s.cfg.inCap ≤ a → step s = .fault (.noSuchOffset .input a)) ∧
  (∀ (s : State) (a : Nat) (ms : List HostMove), s.host = .readOut a :: ms → s.cfg.outCap ≤ a →
    step s = .fault (.noSuchOffset .output a)) ∧
  (∀ (s : State) (a : Nat) (b : Byte) (ms : List HostMove), s.host = .writeOut a b :: ms → s.busy = false →
    s.cfg.outCap ≤ a → step s = .fault (.noSuchOffset .output a))

/-- 44_host.md R184, 60_exceptions.md R205: in DONE the result is `OUT[0..OUT_LEN − 1]`, OUT_LEN equals DECL_SIZE, and the
host reads exactly those bytes; in ERROR it is the failure kind and no bytes, and DONE reads 0; before there is none. -/
def Obligations.ResultIsPresented : Prop :=
  (∀ s : State, s.Inv → s.st = .done →
    ∃ bytes, s.result = some (.done bytes) ∧ bytes.length = s.size.toNat ∧ s.regValue 6 = s.regValue 4 ∧
      s.statusWord.getLsbD 5 = true ∧
      ∀ a < s.size.toNat, bytes[a]? = some (s.outByte a) ∧ s.outSeen a = s.outByte a) ∧
  (∀ s : State, s.Inv → s.st = .error →
    s.result = some (.fail s.errcode) ∧ s.errcode ≠ .none ∧ s.statusWord.getLsbD 5 = false) ∧
  (∀ s : State, s.busy = true ∨ s.st = .idle → s.result = none)

/-- R230: the reset signal, asserted at any time, sets every register to its reset value, leaves both memories with
unspecified contents and abandons a run with no result. -/
def Obligations.ResetSignalSetsEveryRegister : Prop :=
  ∀ (s : State) (ms : List HostMove), s.host = .reset :: ms →
    ∃ t, step s = .next t ∧
      t.st = .idle ∧ t.inLen = 0 ∧ t.size = 0 ∧ t.ip = 0 ∧ t.op = 0 ∧ t.ctrl = 0 ∧ t.flagIdx = 0 ∧ t.disp = 0 ∧
      t.rem = 0 ∧ t.errcode = .none ∧ (∀ n, t.regValue n = 0) ∧ t.result = none ∧
      (∀ a, t.inMem.read a = none ∧ t.outMem.read a = none) ∧
      (∀ a, t.inByte a = Config.unwritten .input t.resets a ∧ t.outSeen a = Config.unwritten .output t.resets a) ∧
      t.cfg = s.cfg ∧ t.host = ms

/-- 70_reset_and_hazards.md section 1: the state after reset holds the reset values, every register reads 0, and the
engine takes no step. -/
def Obligations.ResetStateHoldsTheResetValues : Prop :=
  State.reset.st = .idle ∧ State.reset.errcode = .none ∧ State.reset.disp = 0 ∧ State.reset.rem = 0 ∧
  (∀ n, State.reset.regValue n = 0) ∧ State.reset.host = [] ∧ step State.reset = .next State.reset

/-! ### Failures -/

/-- R204: a step that enters ERROR writes `errcode` and `st` and nothing else, and in ERROR the engine takes no
step. -/
def Obligations.FailureEntryIsPrecise : Prop :=
  (∀ s t : State, s.host = [] → s.st ≠ .error → step s = .next t → t.st = .error →
    ∃ e : ErrCode, e ≠ .none ∧ t = { s with errcode := e, st := .error }) ∧
  (∀ s : State, s.host = [] → s.st = .error → step s = .next s)

/-- R200: the codes of the failure kinds, and each kind's cause and the step that raises it: CHECK the first three,
CTRL and LIT TruncatedInput, BREF TruncatedInput or InvalidBackReference, COPY none. -/
def Obligations.StepsRaiseTheirOwnFailures : Prop :=
  [ErrCode.none, .tooSmall, .tooLarge, .invalidTag, .truncatedInput, .invalidBackReference].map ErrCode.code =
    [0, 1, 2, 3, 4, 5] ∧
  (∀ s t : State, s.host = [] → s.st ≠ .error → step s = .next t → t.st = .error →
    (s.st = .check ∧
      ((t.errcode = .tooSmall ∧ s.inLen.toNat < 4) ∨
        (t.errcode = .tooLarge ∧ s.cfg.maxInput < s.inLen.toNat) ∨
        (t.errcode = .invalidTag ∧ s.inByte 0 ≠ 0x10))) ∨
    (s.st = .ctrl ∧ t.errcode = .truncatedInput ∧ s.op.toNat < s.size.toNat ∧ s.inLen.toNat ≤ s.ip.toNat) ∨
    (s.st = .token ∧ s.tokenFlag = false ∧ t.errcode = .truncatedInput ∧ s.op.toNat < s.size.toNat ∧
      s.inLen.toNat ≤ s.ip.toNat) ∨
    (s.st = .token ∧ s.tokenFlag = true ∧
      ((t.errcode = .truncatedInput ∧ s.op.toNat < s.size.toNat ∧ s.inLen.toNat < s.ip.toNat + 2) ∨
        (t.errcode = .invalidBackReference ∧
          s.op.toNat < (extract (s.inByte s.ip.toNat ++ s.inByte (s.ip.toNat + 1))).2.toNat))))

/-- 60_exceptions.md section 1, R201, which the spec derives: where cursor, output length and flag index stand after
each failure of a run. -/
def Obligations.FailureShowsItsPosition : Prop :=
  ∀ s t : State, s.Inv → s.host = [] → s.st ≠ .error → step s = .next t → t.st = .error →
    (s.st = .check → t.ip = 0 ∧ t.op = 0 ∧ t.size = 0) ∧
    (s.st = .ctrl → t.ip = t.inLen ∧ (t.flagIdx = 8 ∨ (t.flagIdx = 0 ∧ t.ctrl = 0))) ∧
    (s.st = .token → t.errcode = .truncatedInput → s.tokenFlag = false → t.ip = t.inLen ∧ t.flagIdx = s.flagIdx) ∧
    (s.st = .token → t.errcode = .truncatedInput → s.tokenFlag = true →
      (t.ip.toNat = t.inLen.toNat ∨ t.ip.toNat + 1 = t.inLen.toNat) ∧ t.flagIdx = s.flagIdx) ∧
    (t.errcode = .invalidBackReference → t.ip = s.ip ∧ t.op = s.op ∧
      t.op.toNat < (extract (s.inByte t.ip.toNat ++ s.inByte (t.ip.toNat + 1))).2.toNat)

/-- R216: in IDLE, DONE and ERROR the engine takes no step and holds all its state, and of the host's moves only START
makes it BUSY. -/
def Obligations.OnlyStartWakesTheEngine : Prop :=
  (∀ s : State, s.st = .idle ∨ s.st = .done ∨ s.st = .error → s.host = [] → step s = .next s) ∧
  (∀ (s t : State) (m : HostMove) (ms : List HostMove), s.busy = false → s.host = m :: ms → step s = .next t →
    t.busy = true → ∃ w : Word, m = .writeReg 0 w ∧ w.getLsbD 0 = true)

/-! ### The step and whole-machine rules -/

/-- 41_control.md R122, 30_encoding.md R87, with no host move pending: where the bytes the state selects decode to an
instruction, a step is exec of it at that state; what a step does in place of the fetch, and COPY (42_backref.md R145,
log entry 17), are the engine's step as well. The rest is the model's choice: that a pending pass gives the engine that
same step with the move taken off and a pending await with the move kept, since both moves are the model's own (log
entry 11), and that a CMD write is decoded as four bytes, START being exec of it with the move taken off (log entry 14).
-/
def Obligations.StepRunsTheDecodedInstruction : Prop :=
  (∀ (s : State) (f : Format) (bytes rest : List Byte) (i : Instr),
    s.selected = some f → s.beforeFetch f = none → s.fetchBytes f = some bytes → decode f bytes = .ok (i, rest) →
    (s.host = [] → step s = exec i s) ∧
    (∀ ms, s.host = .await :: ms → step s = exec i s) ∧
    (∀ ms, s.host = .pass :: ms → step s = exec i { s with host := ms })) ∧
  (∀ (s t : State) (f : Format), s.selected = some f → s.beforeFetch f = some t →
    (s.host = [] → step s = .next t) ∧
    (∀ ms, s.host = .await :: ms → step s = .next t) ∧
    (∀ ms, s.host = .pass :: ms → step s = .next { t with host := ms })) ∧
  (∀ s : State, s.st = .copy →
    (s.host = [] → step s = copyStep s) ∧
    (∀ ms, s.host = .await :: ms → step s = copyStep s) ∧
    (∀ ms, s.host = .pass :: ms → step s = copyStep { s with host := ms })) ∧
  (∀ (s : State) (w : Word) (ms : List HostMove) (rest : List Byte) (i : Instr), s.host = .writeReg 0 w :: ms →
    decode .reg32 (bytesOfWord w) = .ok (i, rest) → step s = exec i { s with host := ms })

/-- 10_state.md section 5, over every register's reset value: the state after reset satisfies the invariant. -/
def Obligations.ResetSatisfiesTheInvariant : Prop := State.reset.Inv

/-- 10_state.md section 5 (the invariants the spec derives from its step rules): every step, of the engine or of the
host, keeps the invariant: legal registers, canonical memories inside their capacities, every byte below `op` written,
and the clauses (a) to (f). Clause (b) for DONE is whole in the state a step enters DONE with, and stays so until the
host writes IN_LEN or `IN[0]`; that it may end there is the model's reading (log entry 6). -/
def Obligations.EveryStepKeepsTheInvariant : Prop :=
  ∀ s t : State, s.Inv → step s = .next t →
    t.Inv ∧
    (s.st ≠ .done → t.st = .done → t.Streaming) ∧
    (s.st = .done → s.Streaming → s.rewritesInput = false → t.st = .done → t.Streaming)

/-- 60_exceptions.md section 1: from a state a run reaches, with the host keeping to the moves the spec gives it, every
step completes; nothing reads out of range, is refused or hangs. -/
def Obligations.NoReachableStepStops : Prop :=
  ∀ s : State, s.Inv → s.hostAllowed = true → ∃ t, step s = .next t

/-- 20_memory.md sections 1 and 5: the engine never writes `IN`, nor IN_LEN, so no output byte becomes a later
element. -/
def Obligations.EngineNeverWritesTheInput : Prop :=
  ∀ s t : State, s.host = [] → step s = .next t →
    t.inMem = s.inMem ∧ t.inLen = s.inLen ∧ ∀ a, t.inByte a = s.inByte a

/-- 10_state.md section 2 (R23): no step of a run decreases the cursor; it advances by 4 for the header, 1 for a control
byte, 1 for a literal, 2 for a back-reference and 0 otherwise, and never passes the input. -/
def Obligations.CursorMovesForwardOnly : Prop :=
  ∀ s t : State, s.Inv → s.host = [] → step s = .next t →
    t.ip.toNat = s.ip.toNat +
      (if t.st = .error then 0
       else if s.st = .check then 4
       else if s.st = .ctrl ∧ t.st = .token then 1
       else if s.st = .token ∧ s.tokenFlag = false then 1
       else if s.st = .token then 2
       else 0) ∧
    (t.st ≠ .error → s.busy = true → t.ip.toNat ≤ t.inLen.toNat)

/-- 20_memory.md section 1 (R61): an engine step of a run appends at most one byte, at `OUT[op]`, inside the memory, and
leaves every other byte of `OUT` alone. -/
def Obligations.OutputIsAppendOnly : Prop :=
  ∀ s t : State, s.Inv → s.host = [] → step s = .next t →
    ((t.op = s.op ∧ ∀ a, t.outByte a = s.outByte a) ∨
      (t.op.toNat = s.op.toNat + 1 ∧ s.op.toNat < s.cfg.outCap ∧ ∀ a, a ≠ s.op.toNat → t.outByte a = s.outByte a))

/-- 20_memory.md section 1 (R60), 30_encoding.md section 4 (R90): bytes of `IN` at or above `inLen` affect no step of
the engine: with them changed, the step does the same and leaves the same state but for them. -/
def Obligations.TrailingInputHasNoEffect : Prop :=
  ∀ (s : State) (m : Memory), s.host = [] → (∀ a < s.inLen.toNat, m.read a = s.inMem.read a) →
    (∀ t, step s = .next t → step { s with inMem := m } = .next { t with inMem := m }) ∧
    (∀ e, step s = .fault e → step { s with inMem := m } = .fault e) ∧
    (∀ r, step s = .refused r → step { s with inMem := m } = .refused r)

/-- 20_memory.md section 1 (R61), 10_state.md section 5 (f): no engine step of a run reads `OUT` at or above `op`: with
those bytes changed, it leaves the same registers and the same bytes below the new `op`. -/
def Obligations.StaleOutputHasNoEffect : Prop :=
  ∀ (s t : State) (m : Memory), s.Inv → s.host = [] → (∀ a < s.op.toNat, m.read a = s.outMem.read a) →
    step s = .next t →
    ∃ u, step { s with outMem := m } = .next u ∧ u = { t with outMem := u.outMem } ∧
      ∀ a < t.op.toNat, u.outByte a = t.outByte a

/-- 00_scope.md section 3: no step, of the engine or of the host, changes the parameters. -/
def Obligations.ParametersNeverChange : Prop :=
  ∀ s t : State, step s = .next t → t.cfg = s.cfg

/-! ### Whole runs -/

/-- 41_control.md R126, which the spec derives: from START the engine ends in DONE or ERROR, in one step when CHECK
fails and else in at most `1 + (inLen − 4) + size + 1` steps. -/
def Obligations.EveryRunEndsWithinTheBound : Prop :=
  ∀ s : State, s.Started →
    ∃ k t, Host.Core.run core k s = .next t ∧ (State.st t = .done ∨ State.st t = .error) ∧
      (k ≤ 1 ∨ (4 ≤ s.inLen.toNat ∧ s.inLen.toNat ≤ s.cfg.maxInput ∧ s.inByte 0 = 0x10 ∧
        k ≤ 1 + (s.inLen.toNat - 4) +
          ((s.inByte 1).toNat + 256 * (s.inByte 2).toNat + 65536 * (s.inByte 3).toNat) + 1))

/-- 41_control.md R127, which the spec derives: the result a run reaches from START is that of the reference function
on the input, and on success the final cursor is the function's. -/
def Obligations.RunComputesTheReferenceFunction : Prop :=
  ∀ s : State, s.Started →
    ∃ k t, Host.Core.run core k s = .next t ∧
      State.result t = some (refResult (lz10Decode s.cfg.maxInput s.input)) ∧
      (∀ i out, lz10Decode s.cfg.maxInput s.input = .ok (i, out) → (State.ip t).toNat = i)

/-- 44_host.md R185, which the spec derives: the decode operation, loading a buffer, writing its length and START and
waiting for BUSY = 0, from any state that is not BUSY, gives the reference function's result on the buffer. The list of
moves and the move that waits are the model's choice (log entry 11). -/
def Obligations.HostDecodeGivesTheReferenceResult : Prop :=
  ∀ (s : State) (inp : List Byte), s.busy = false → s.cfg.ok → inp.length ≤ s.cfg.maxInput →
    s.host = decodeMoves inp →
    ∃ k t, Host.Core.run core k s = .next t ∧ State.host t = [] ∧
      State.result t = some (refResult (lz10Decode s.cfg.maxInput inp))
end

