-- ==== Sys2Proof/Laws/Memory.lean ====
section
/-! SUPPORT. The laws of the byte memories: a read after a write, and that every operation keeps the canonical
form. -/
namespace Sys2Proof.Machine

@[simp] theorem Memory.read_nil (k : Nat) : Memory.read [] k = none := rfl

@[simp] theorem Memory.read_cons (a : Nat) (b : Byte) (m : Memory) (k : Nat) :
    Memory.read ((a, b) :: m) k = if k = a then some b else Memory.read m k := rfl

/-- A read of the offset written gives the byte written. -/
@[simp] theorem Memory.read_write_same (m : Memory) (k : Nat) (v : Byte) :
    (m.write k v).read k = some v := by
  induction m with
  | nil => simp [Memory.write]
  | cons c m ih =>
    obtain ⟨a, b⟩ := c
    simp only [Memory.write]
    split
    · simp
    · split
      · simp
      · simp_all

/-- A write leaves every other offset alone. -/
theorem Memory.read_write_other (m : Memory) (k a : Nat) (v : Byte) (h : a ≠ k) :
    (m.write k v).read a = m.read a := by
  induction m with
  | nil => simp [Memory.write, h]
  | cons c m ih =>
    obtain ⟨x, b⟩ := c
    simp only [Memory.write]
    split
    · simp [h]
    · split
      · next hx => subst hx; simp [h]
      · simp [ih]

theorem Memory.read_write (m : Memory) (k a : Nat) (v : Byte) :
    (m.write k v).read a = if a = k then some v else m.read a := by
  split
  · next h => subst h; simp
  · next h => exact Memory.read_write_other m k a v h

/-- The cells of a memory after a write: the one written, or one that was there. -/
theorem Memory.mem_write {m : Memory} {k : Nat} {v : Byte} {c : Host.Cell} (h : c ∈ m.write k v) :
    c = (k, v) ∨ c ∈ m := by
  induction m with
  | nil => exact .inl (by simpa [Memory.write] using h)
  | cons d m ih =>
    obtain ⟨x, b⟩ := d
    simp only [Memory.write] at h
    split at h
    · simpa using h
    · split at h
      · rcases List.mem_cons.1 h with h | h
        · exact .inl h
        · exact .inr (List.mem_cons_of_mem _ h)
      · rcases List.mem_cons.1 h with h | h
        · exact .inr (h ▸ List.mem_cons_self)
        · exact (ih h).imp id (List.mem_cons_of_mem _)

/-- A write keeps the canonical form. -/
theorem Memory.write_wf {m : Memory} (h : m.wf) (k : Nat) (v : Byte) : (m.write k v).wf := by
  induction m with
  | nil => simp [Memory.write, Memory.wf]
  | cons c m ih =>
    obtain ⟨x, b⟩ := c
    obtain ⟨hx, hm⟩ := List.pairwise_cons.1 h
    simp only [Memory.write]
    split
    · next hk =>
      refine List.pairwise_cons.2 ⟨fun y hy => ?_, h⟩
      rcases List.mem_cons.1 hy with rfl | hy
      · exact hk
      · exact hk.trans (hx y hy)
    · split
      · next hk => subst hk; exact List.pairwise_cons.2 ⟨hx, hm⟩
      · next h1 h2 =>
        refine List.pairwise_cons.2 ⟨fun y hy => ?_, ih hm⟩
        obtain ⟨c, hc, rfl⟩ := List.mem_map.1 hy
        rcases Memory.mem_write hc with rfl | hc
        · show x < k
          omega
        · exact hx _ (List.mem_map_of_mem hc)

/-- A write unlists no offset. -/
theorem Memory.write_read_ne_none {m : Memory} {k a : Nat} {v : Byte} (h : m.read a ≠ none) :
    (m.write k v).read a ≠ none := by
  rw [Memory.read_write]
  split
  · simp
  · exact h

/-- The offsets of a list after adding one. -/
@[simp] theorem mem_addOffset (l : List Nat) (k a : Nat) : a ∈ addOffset l k ↔ a = k ∨ a ∈ l := by
  induction l with
  | nil => simp [addOffset]
  | cons x l ih =>
    simp only [addOffset]
    split
    · simp
    · split
      · next h => subst h; simp
      · simp only [List.mem_cons, ih]; tauto

/-- Adding an offset keeps the list strictly rising. -/
theorem addOffset_rising {l : List Nat} (h : l.Pairwise (· < ·)) (k : Nat) :
    (addOffset l k).Pairwise (· < ·) := by
  induction l with
  | nil => simp [addOffset]
  | cons x l ih =>
    obtain ⟨hx, hl⟩ := List.pairwise_cons.1 h
    simp only [addOffset]
    split
    · next hk =>
      refine List.pairwise_cons.2 ⟨fun y hy => ?_, h⟩
      rcases List.mem_cons.1 hy with rfl | hy
      · exact hk
      · exact hk.trans (hx y hy)
    · split
      · exact h
      · next h1 h2 =>
        refine List.pairwise_cons.2 ⟨fun y hy => ?_, ih hl⟩
        rcases (mem_addOffset l k y).1 hy with rfl | hy
        · omega
        · exact hx y hy

end Sys2Proof.Machine
end

