-- ==== Sys2Proof/Laws/Operands.lean ====
section
/-! SUPPORT. The operand assembly read as natural-number arithmetic. -/
namespace Sys2Proof.Machine

theorem littleEndian24_toNat (a b c : Byte) :
    (littleEndian24 a b c).toNat = a.toNat + 256 * b.toNat + 65536 * c.toNat := by
  have := a.isLt; have := b.isLt; have := c.isLt
  simp only [littleEndian24, BitVec.toNat_append]
  rw [← Nat.shiftLeft_add_eq_or_of_lt (by omega : a.toNat < 2 ^ 8),
    ← Nat.shiftLeft_add_eq_or_of_lt (by simp only [Nat.shiftLeft_eq]; omega)]
  simp only [Nat.shiftLeft_eq]; omega

theorem bigEndian16_toNat (hi lo : Byte) : (bigEndian16 hi lo).toNat = 256 * hi.toNat + lo.toNat := by
  have := lo.isLt
  simp only [bigEndian16, BitVec.toNat_append]
  rw [← Nat.shiftLeft_add_eq_or_of_lt (by omega : lo.toNat < 2 ^ 8)]
  simp only [Nat.shiftLeft_eq]; omega

/-- `count = (v >> 12) + 3`. -/
theorem extract_count_toNat (v : BitVec 16) : (extract v).1.toNat = v.toNat / 4096 + 3 := by
  have := v.isLt
  have : (3 : BitVec 5).toNat = 3 := rfl
  simp only [extract, BitVec.toNat_add, BitVec.toNat_setWidth, BitVec.extractLsb'_toNat,
    Nat.shiftRight_eq_div_pow]
  omega

/-- `disp = (v & 0xFFF) + 1`. -/
theorem extract_disp_toNat (v : BitVec 16) : (extract v).2.toNat = v.toNat % 4096 + 1 := by
  have := v.isLt
  have : (1 : BitVec 13).toNat = 1 := rfl
  simp only [extract, BitVec.toNat_add, BitVec.toNat_setWidth, BitVec.extractLsb'_toNat,
    Nat.shiftRight_eq_div_pow]
  omega

/-- A register value is put together from its bytes. -/
theorem wordOfBytes_extract (w : Word) :
    wordOfBytes (w.extractLsb' 24 8) (w.extractLsb' 16 8) (w.extractLsb' 8 8) (w.extractLsb' 0 8) = w := by
  apply BitVec.eq_of_getLsbD_eq
  intro i hi
  simp only [wordOfBytes, BitVec.getLsbD_append, BitVec.getLsbD_extractLsb']
  by_cases h1 : i < 24
  · by_cases h2 : i < 16
    · by_cases h3 : i < 8
      · simp [h1, h2, h3]
      · simp [h1, h2, h3, show i - 8 < 8 by omega, show 8 + (i - 8) = i by omega]
    · simp [h1, h2, show i - 16 < 8 by omega, show 16 + (i - 16) = i by omega]
  · simp [h1, show i - 24 < 8 by omega, show 24 + (i - 24) = i by omega]

end Sys2Proof.Machine
end

