-- ==== Sys2Proof/Laws/State.lean ====
section
/-! SUPPORT. What each named update of the state leaves in each field, one lemma a field. -/
namespace Sys2Proof.Machine

section raiseFields

@[simp] theorem State.raise_cfg (e : ErrCode) (s : State) : (s.raise e).cfg = s.cfg := rfl
@[simp] theorem State.raise_st (e : ErrCode) (s : State) : (s.raise e).st = .error := rfl
@[simp] theorem State.raise_inLen (e : ErrCode) (s : State) : (s.raise e).inLen = s.inLen := rfl
@[simp] theorem State.raise_size (e : ErrCode) (s : State) : (s.raise e).size = s.size := rfl
@[simp] theorem State.raise_ip (e : ErrCode) (s : State) : (s.raise e).ip = s.ip := rfl
@[simp] theorem State.raise_op (e : ErrCode) (s : State) : (s.raise e).op = s.op := rfl
@[simp] theorem State.raise_ctrl (e : ErrCode) (s : State) : (s.raise e).ctrl = s.ctrl := rfl
@[simp] theorem State.raise_flagIdx (e : ErrCode) (s : State) : (s.raise e).flagIdx = s.flagIdx := rfl
@[simp] theorem State.raise_disp (e : ErrCode) (s : State) : (s.raise e).disp = s.disp := rfl
@[simp] theorem State.raise_rem (e : ErrCode) (s : State) : (s.raise e).rem = s.rem := rfl
@[simp] theorem State.raise_errcode (e : ErrCode) (s : State) : (s.raise e).errcode = e := rfl
@[simp] theorem State.raise_inMem (e : ErrCode) (s : State) : (s.raise e).inMem = s.inMem := rfl
@[simp] theorem State.raise_outMem (e : ErrCode) (s : State) : (s.raise e).outMem = s.outMem := rfl
@[simp] theorem State.raise_outHost (e : ErrCode) (s : State) : (s.raise e).outHost = s.outHost := rfl
@[simp] theorem State.raise_resets (e : ErrCode) (s : State) : (s.raise e).resets = s.resets := rfl
@[simp] theorem State.raise_runs (e : ErrCode) (s : State) : (s.raise e).runs = s.runs := rfl
@[simp] theorem State.raise_draws (e : ErrCode) (s : State) : (s.raise e).draws = s.draws := rfl
@[simp] theorem State.raise_host (e : ErrCode) (s : State) : (s.raise e).host = s.host := rfl
@[simp] theorem State.raise_replies (e : ErrCode) (s : State) : (s.raise e).replies = s.replies := rfl

end raiseFields

section emitFields

@[simp] theorem State.emit_cfg (b : Byte) (s : State) : (s.emit b).cfg = s.cfg := rfl
@[simp] theorem State.emit_st (b : Byte) (s : State) : (s.emit b).st = s.st := rfl
@[simp] theorem State.emit_inLen (b : Byte) (s : State) : (s.emit b).inLen = s.inLen := rfl
@[simp] theorem State.emit_size (b : Byte) (s : State) : (s.emit b).size = s.size := rfl
@[simp] theorem State.emit_ip (b : Byte) (s : State) : (s.emit b).ip = s.ip := rfl
@[simp] theorem State.emit_op (b : Byte) (s : State) : (s.emit b).op = s.op + 1 := rfl
@[simp] theorem State.emit_ctrl (b : Byte) (s : State) : (s.emit b).ctrl = s.ctrl := rfl
@[simp] theorem State.emit_flagIdx (b : Byte) (s : State) : (s.emit b).flagIdx = s.flagIdx := rfl
@[simp] theorem State.emit_disp (b : Byte) (s : State) : (s.emit b).disp = s.disp := rfl
@[simp] theorem State.emit_rem (b : Byte) (s : State) : (s.emit b).rem = s.rem := rfl
@[simp] theorem State.emit_errcode (b : Byte) (s : State) : (s.emit b).errcode = s.errcode := rfl
@[simp] theorem State.emit_inMem (b : Byte) (s : State) : (s.emit b).inMem = s.inMem := rfl
@[simp] theorem State.emit_outMem (b : Byte) (s : State) :
    (s.emit b).outMem = s.outMem.write s.op.toNat b := rfl
@[simp] theorem State.emit_outHost (b : Byte) (s : State) : (s.emit b).outHost = s.outHost := rfl
@[simp] theorem State.emit_resets (b : Byte) (s : State) : (s.emit b).resets = s.resets := rfl
@[simp] theorem State.emit_runs (b : Byte) (s : State) : (s.emit b).runs = s.runs := rfl
@[simp] theorem State.emit_draws (b : Byte) (s : State) : (s.emit b).draws = s.draws := rfl
@[simp] theorem State.emit_host (b : Byte) (s : State) : (s.emit b).host = s.host := rfl
@[simp] theorem State.emit_replies (b : Byte) (s : State) : (s.emit b).replies = s.replies := rfl

end emitFields

section afterTokenFields

@[simp] theorem State.afterToken_cfg (s : State) : s.afterToken.cfg = s.cfg := rfl
@[simp] theorem State.afterToken_st (s : State) : s.afterToken.st = 
      if s.size.toNat ≤ s.op.toNat then .done else if s.flagIdx.toNat + 1 = 8 then .ctrl else .token := rfl
@[simp] theorem State.afterToken_inLen (s : State) : s.afterToken.inLen = s.inLen := rfl
@[simp] theorem State.afterToken_size (s : State) : s.afterToken.size = s.size := rfl
@[simp] theorem State.afterToken_ip (s : State) : s.afterToken.ip = s.ip := rfl
@[simp] theorem State.afterToken_op (s : State) : s.afterToken.op = s.op := rfl
@[simp] theorem State.afterToken_ctrl (s : State) : s.afterToken.ctrl = s.ctrl := rfl
@[simp] theorem State.afterToken_flagIdx (s : State) : s.afterToken.flagIdx = s.flagIdx + 1 := rfl
@[simp] theorem State.afterToken_disp (s : State) : s.afterToken.disp = s.disp := rfl
@[simp] theorem State.afterToken_rem (s : State) : s.afterToken.rem = s.rem := rfl
@[simp] theorem State.afterToken_errcode (s : State) : s.afterToken.errcode = s.errcode := rfl
@[simp] theorem State.afterToken_inMem (s : State) : s.afterToken.inMem = s.inMem := rfl
@[simp] theorem State.afterToken_outMem (s : State) : s.afterToken.outMem = s.outMem := rfl
@[simp] theorem State.afterToken_outHost (s : State) : s.afterToken.outHost = s.outHost := rfl
@[simp] theorem State.afterToken_resets (s : State) : s.afterToken.resets = s.resets := rfl
@[simp] theorem State.afterToken_runs (s : State) : s.afterToken.runs = s.runs := rfl
@[simp] theorem State.afterToken_draws (s : State) : s.afterToken.draws = s.draws := rfl
@[simp] theorem State.afterToken_host (s : State) : s.afterToken.host = s.host := rfl
@[simp] theorem State.afterToken_replies (s : State) : s.afterToken.replies = s.replies := rfl

end afterTokenFields

section startRunFields

@[simp] theorem State.startRun_cfg (s : State) : s.startRun.cfg = s.cfg := rfl
@[simp] theorem State.startRun_st (s : State) : s.startRun.st = .check := rfl
@[simp] theorem State.startRun_inLen (s : State) : s.startRun.inLen = s.inLen := rfl
@[simp] theorem State.startRun_size (s : State) : s.startRun.size = 0 := rfl
@[simp] theorem State.startRun_ip (s : State) : s.startRun.ip = 0 := rfl
@[simp] theorem State.startRun_op (s : State) : s.startRun.op = 0 := rfl
@[simp] theorem State.startRun_ctrl (s : State) : s.startRun.ctrl = 0 := rfl
@[simp] theorem State.startRun_flagIdx (s : State) : s.startRun.flagIdx = 0 := rfl
@[simp] theorem State.startRun_disp (s : State) : s.startRun.disp = 0 := rfl
@[simp] theorem State.startRun_rem (s : State) : s.startRun.rem = 0 := rfl
@[simp] theorem State.startRun_errcode (s : State) : s.startRun.errcode = .none := rfl
@[simp] theorem State.startRun_inMem (s : State) : s.startRun.inMem = s.inMem := rfl
@[simp] theorem State.startRun_outMem (s : State) : s.startRun.outMem = s.outMem := rfl
@[simp] theorem State.startRun_outHost (s : State) : s.startRun.outHost = [] := rfl
@[simp] theorem State.startRun_resets (s : State) : s.startRun.resets = s.resets := rfl
@[simp] theorem State.startRun_runs (s : State) : s.startRun.runs = s.runs + 1 := rfl
@[simp] theorem State.startRun_draws (s : State) : s.startRun.draws = s.draws := rfl
@[simp] theorem State.startRun_host (s : State) : s.startRun.host = s.host := rfl
@[simp] theorem State.startRun_replies (s : State) : s.startRun.replies = s.replies := rfl

end startRunFields

section resetSignalFields

@[simp] theorem State.resetSignal_cfg (s : State) : s.resetSignal.cfg = s.cfg := rfl
@[simp] theorem State.resetSignal_st (s : State) : s.resetSignal.st = .idle := rfl
@[simp] theorem State.resetSignal_inLen (s : State) : s.resetSignal.inLen = 0 := rfl
@[simp] theorem State.resetSignal_size (s : State) : s.resetSignal.size = 0 := rfl
@[simp] theorem State.resetSignal_ip (s : State) : s.resetSignal.ip = 0 := rfl
@[simp] theorem State.resetSignal_op (s : State) : s.resetSignal.op = 0 := rfl
@[simp] theorem State.resetSignal_ctrl (s : State) : s.resetSignal.ctrl = 0 := rfl
@[simp] theorem State.resetSignal_flagIdx (s : State) : s.resetSignal.flagIdx = 0 := rfl
@[simp] theorem State.resetSignal_disp (s : State) : s.resetSignal.disp = 0 := rfl
@[simp] theorem State.resetSignal_rem (s : State) : s.resetSignal.rem = 0 := rfl
@[simp] theorem State.resetSignal_errcode (s : State) : s.resetSignal.errcode = .none := rfl
@[simp] theorem State.resetSignal_inMem (s : State) : s.resetSignal.inMem = [] := rfl
@[simp] theorem State.resetSignal_outMem (s : State) : s.resetSignal.outMem = [] := rfl
@[simp] theorem State.resetSignal_outHost (s : State) : s.resetSignal.outHost = [] := rfl
@[simp] theorem State.resetSignal_resets (s : State) : s.resetSignal.resets = s.resets + 1 := rfl
@[simp] theorem State.resetSignal_runs (s : State) : s.resetSignal.runs = s.runs := rfl
@[simp] theorem State.resetSignal_draws (s : State) : s.resetSignal.draws = s.draws := rfl
@[simp] theorem State.resetSignal_host (s : State) : s.resetSignal.host = s.host := rfl
@[simp] theorem State.resetSignal_replies (s : State) : s.resetSignal.replies = s.replies := rfl

end resetSignalFields

section replyFields

@[simp] theorem State.reply_cfg (v : Word) (s : State) : (s.reply v).cfg = s.cfg := rfl
@[simp] theorem State.reply_st (v : Word) (s : State) : (s.reply v).st = s.st := rfl
@[simp] theorem State.reply_inLen (v : Word) (s : State) : (s.reply v).inLen = s.inLen := rfl
@[simp] theorem State.reply_size (v : Word) (s : State) : (s.reply v).size = s.size := rfl
@[simp] theorem State.reply_ip (v : Word) (s : State) : (s.reply v).ip = s.ip := rfl
@[simp] theorem State.reply_op (v : Word) (s : State) : (s.reply v).op = s.op := rfl
@[simp] theorem State.reply_ctrl (v : Word) (s : State) : (s.reply v).ctrl = s.ctrl := rfl
@[simp] theorem State.reply_flagIdx (v : Word) (s : State) : (s.reply v).flagIdx = s.flagIdx := rfl
@[simp] theorem State.reply_disp (v : Word) (s : State) : (s.reply v).disp = s.disp := rfl
@[simp] theorem State.reply_rem (v : Word) (s : State) : (s.reply v).rem = s.rem := rfl
@[simp] theorem State.reply_errcode (v : Word) (s : State) : (s.reply v).errcode = s.errcode := rfl
@[simp] theorem State.reply_inMem (v : Word) (s : State) : (s.reply v).inMem = s.inMem := rfl
@[simp] theorem State.reply_outMem (v : Word) (s : State) : (s.reply v).outMem = s.outMem := rfl
@[simp] theorem State.reply_outHost (v : Word) (s : State) : (s.reply v).outHost = s.outHost := rfl
@[simp] theorem State.reply_resets (v : Word) (s : State) : (s.reply v).resets = s.resets := rfl
@[simp] theorem State.reply_runs (v : Word) (s : State) : (s.reply v).runs = s.runs := rfl
@[simp] theorem State.reply_draws (v : Word) (s : State) : (s.reply v).draws = s.draws := rfl
@[simp] theorem State.reply_host (v : Word) (s : State) : (s.reply v).host = s.host := rfl
@[simp] theorem State.reply_replies (v : Word) (s : State) : (s.reply v).replies = v :: s.replies := rfl

end replyFields

section replyUnspecifiedFields

@[simp] theorem State.replyUnspecified_cfg (m : Word) (s : State) : (s.replyUnspecified m).cfg = s.cfg := rfl
@[simp] theorem State.replyUnspecified_st (m : Word) (s : State) : (s.replyUnspecified m).st = s.st := rfl
@[simp] theorem State.replyUnspecified_inLen (m : Word) (s : State) :
    (s.replyUnspecified m).inLen = s.inLen := rfl
@[simp] theorem State.replyUnspecified_size (m : Word) (s : State) :
    (s.replyUnspecified m).size = s.size := rfl
@[simp] theorem State.replyUnspecified_ip (m : Word) (s : State) : (s.replyUnspecified m).ip = s.ip := rfl
@[simp] theorem State.replyUnspecified_op (m : Word) (s : State) : (s.replyUnspecified m).op = s.op := rfl
@[simp] theorem State.replyUnspecified_ctrl (m : Word) (s : State) :
    (s.replyUnspecified m).ctrl = s.ctrl := rfl
@[simp] theorem State.replyUnspecified_flagIdx (m : Word) (s : State) :
    (s.replyUnspecified m).flagIdx = s.flagIdx := rfl
@[simp] theorem State.replyUnspecified_disp (m : Word) (s : State) :
    (s.replyUnspecified m).disp = s.disp := rfl
@[simp] theorem State.replyUnspecified_rem (m : Word) (s : State) : (s.replyUnspecified m).rem = s.rem := rfl
@[simp] theorem State.replyUnspecified_errcode (m : Word) (s : State) :
    (s.replyUnspecified m).errcode = s.errcode := rfl
@[simp] theorem State.replyUnspecified_inMem (m : Word) (s : State) :
    (s.replyUnspecified m).inMem = s.inMem := rfl
@[simp] theorem State.replyUnspecified_outMem (m : Word) (s : State) :
    (s.replyUnspecified m).outMem = s.outMem := rfl
@[simp] theorem State.replyUnspecified_outHost (m : Word) (s : State) :
    (s.replyUnspecified m).outHost = s.outHost := rfl
@[simp] theorem State.replyUnspecified_resets (m : Word) (s : State) :
    (s.replyUnspecified m).resets = s.resets := rfl
@[simp] theorem State.replyUnspecified_runs (m : Word) (s : State) :
    (s.replyUnspecified m).runs = s.runs := rfl
@[simp] theorem State.replyUnspecified_draws (m : Word) (s : State) :
    (s.replyUnspecified m).draws = s.draws + 1 := rfl
@[simp] theorem State.replyUnspecified_host (m : Word) (s : State) :
    (s.replyUnspecified m).host = s.host := rfl
@[simp] theorem State.replyUnspecified_replies (m : Word) (s : State) :
    (s.replyUnspecified m).replies = (Config.busyRead s.draws &&& m) :: s.replies := rfl

end replyUnspecifiedFields

end Sys2Proof.Machine
end

