-- ==== Sys2Proof/Laws/Ops.lean ====
section
/-! SUPPORT. What each shared operation can do, said once. -/
namespace Sys2Proof.Machine

/-! ### Bytes of the memories -/

/-- Appending a byte writes `OUT[op]` and no other offset. -/
theorem State.emit_outByte (b : Byte) (s : State) (a : Nat) :
    (s.emit b).outByte a = if a = s.op.toNat then b else s.outByte a := by
  simp only [State.outByte, State.emit, Memory.read_write]
  split <;> simp

@[simp] theorem State.emit_inByte (b : Byte) (s : State) (a : Nat) : (s.emit b).inByte a = s.inByte a := rfl
@[simp] theorem State.raise_outByte (e : ErrCode) (s : State) (a : Nat) : (s.raise e).outByte a = s.outByte a := rfl
@[simp] theorem State.raise_inByte (e : ErrCode) (s : State) (a : Nat) : (s.raise e).inByte a = s.inByte a := rfl
@[simp] theorem State.afterToken_outByte (s : State) (a : Nat) : s.afterToken.outByte a = s.outByte a := rfl
@[simp] theorem State.afterToken_inByte (s : State) (a : Nat) : s.afterToken.inByte a = s.inByte a := rfl

/-- `n` bytes are read where all lie below `IN_CAP`, and they are the bytes there. -/
theorem State.readIn_eq (s : State) (a n : Nat) :
    s.readIn a n = if n = 0 ∨ a + n ≤ s.cfg.inCap then some ((List.range' a n).map s.inByte) else none := by
  induction n generalizing a with
  | zero => simp [State.readIn]
  | succ n ih =>
    simp only [State.readIn, ih, List.range'_succ, List.map_cons]
    by_cases h : a < s.cfg.inCap
    · by_cases h' : n = 0
      · subst h'; simp [h, show a + 1 ≤ s.cfg.inCap by omega]
      · by_cases h'' : a + 1 + n ≤ s.cfg.inCap
        · simp [h, h'', show a + (n + 1) ≤ s.cfg.inCap by omega]
        · simp [h, h', h'', show ¬a + (n + 1) ≤ s.cfg.inCap by omega]
    · simp [h, show ¬a + (n + 1) ≤ s.cfg.inCap by omega]

/-! ### Registers that count up or down, as natural numbers -/

/-- The output length grows by 1 where the output is short of `size`. -/
theorem State.op_add_one (s : State) (h : s.op.toNat < s.size.toNat) : (s.op + 1).toNat = s.op.toNat + 1 := by
  have := s.size.isLt
  have : (1 : BitVec 24).toNat = 1 := rfl
  rw [BitVec.toNat_add]; omega

/-- The flag index grows by 1 where a flag is left. -/
theorem State.flagIdx_add_one (s : State) (h : s.flagIdx.toNat ≤ 7) :
    (s.flagIdx + 1).toNat = s.flagIdx.toNat + 1 := by
  have : (1 : BitVec 4).toNat = 1 := rfl
  rw [BitVec.toNat_add]; omega

/-- The cursor advances by 1 where a byte is left. -/
theorem State.ip_add_one (s : State) (h : s.ip.toNat < s.inLen.toNat) : (s.ip + 1).toNat = s.ip.toNat + 1 := by
  have := s.inLen.isLt
  have : (1 : Word).toNat = 1 := rfl
  rw [BitVec.toNat_add]; omega

/-- The cursor advances by 2 where two bytes are left. -/
theorem State.ip_add_two (s : State) (h : s.ip.toNat + 2 ≤ s.inLen.toNat) :
    (s.ip + 2).toNat = s.ip.toNat + 2 := by
  have := s.inLen.isLt
  have : (2 : Word).toNat = 2 := rfl
  rw [BitVec.toNat_add]; omega

/-- The bytes left to copy shrink by 1 where there is one. -/
theorem State.rem_sub_one (s : State) (h : 1 ≤ s.rem.toNat) : (s.rem - 1).toNat = s.rem.toNat - 1 := by
  rw [BitVec.toNat_sub_of_le (by rw [BitVec.le_def]; exact h)]; rfl

/-! ### The states that are BUSY -/

theorem State.busy_iff (s : State) :
    s.busy = true ↔ s.st = .check ∨ s.st = .ctrl ∨ s.st = .token ∨ s.st = .copy := by
  unfold State.busy; cases s.st <;> simp

theorem State.not_busy_iff (s : State) :
    s.busy = false ↔ s.st = .idle ∨ s.st = .done ∨ s.st = .error := by
  unfold State.busy; cases s.st <;> simp

/-! ### The selected element -/

theorem State.selected_h32 (s : State) : s.selected = some .h32 ↔ s.st = .check := by
  unfold State.selected; cases s.st <;> simp
  split <;> simp

theorem State.selected_c8 (s : State) : s.selected = some .c8 ↔ s.st = .ctrl := by
  unfold State.selected; cases s.st <;> simp
  split <;> simp

theorem State.selected_l8 (s : State) :
    s.selected = some .l8 ↔
      s.st = .token ∧ s.flagIdx.toNat ≤ 7 ∧ s.op.toNat < s.size.toNat ∧ s.tokenFlag = false := by
  unfold State.selected; cases s.st <;> simp [and_assoc]

theorem State.selected_b16 (s : State) :
    s.selected = some .b16 ↔
      s.st = .token ∧ s.flagIdx.toNat ≤ 7 ∧ s.op.toNat < s.size.toNat ∧ s.tokenFlag = true := by
  unfold State.selected; cases s.st <;> simp [and_assoc]

theorem State.selected_reg32 (s : State) : s.selected ≠ some .reg32 := by
  unfold State.selected; cases s.st <;> simp; split <;> simp

/-- No engine step fetches an element where the engine is copying or not BUSY. -/
theorem State.selected_token (s : State) (h : s.st = .token) (hf : s.flagIdx.toNat ≤ 7)
    (ho : s.op.toNat < s.size.toNat) : s.selected = some (if s.tokenFlag then .b16 else .l8) := by
  simp only [State.selected, h, hf, ho, and_self, if_true]
  split <;> simp_all

/-- A meaning guarded by a format answers a next state only where the format is selected. -/
theorem whenSelected_next {f : Format} {s t : State} {o : Out} :
    whenSelected f s o = .next t ↔ s.selected = some f ∧ o = .next t := by
  unfold whenSelected; split <;> simp_all

theorem whenSelected_pos {f : Format} {s : State} {o : Out} (h : s.selected = some f) :
    whenSelected f s o = o := if_pos h

/-! ### Before the fetch -/

theorem State.complete_iff (s : State) : s.complete = true ↔ s.size.toNat ≤ s.op.toNat := by
  simp [State.complete]

theorem State.bytesLeft_iff (s : State) (n : Nat) :
    s.bytesLeft n = true ↔ n ≤ s.inLen.toNat - s.ip.toNat := by
  simp [State.bytesLeft]

theorem State.beforeFetch_h32_none (s : State) :
    s.beforeFetch .h32 = none ↔ 4 ≤ s.inLen.toNat ∧ s.inLen.toNat ≤ s.cfg.maxInput := by
  simp only [State.beforeFetch]; split <;> [skip; split] <;> simp <;> omega

theorem State.beforeFetch_c8_none (s : State) :
    s.beforeFetch .c8 = none ↔ s.op.toNat < s.size.toNat ∧ s.ip.toNat < s.inLen.toNat := by
  simp only [State.beforeFetch, State.complete_iff, State.bytesLeft_iff]
  split <;> [skip; split] <;> simp <;> omega

theorem State.beforeFetch_l8_none (s : State) :
    s.beforeFetch .l8 = none ↔ s.ip.toNat < s.inLen.toNat := by
  simp only [State.beforeFetch, State.bytesLeft_iff]; split <;> simp <;> omega

theorem State.beforeFetch_b16_none (s : State) :
    s.beforeFetch .b16 = none ↔ s.ip.toNat + 2 ≤ s.inLen.toNat := by
  simp only [State.beforeFetch, State.bytesLeft_iff]; split <;> simp <;> omega

/-- All that can happen in place of a fetch: the run ends in DONE at a control byte, or one of three failures is
taken. -/
theorem State.beforeFetch_some {f : Format} {s t : State} (h : s.beforeFetch f = some t) :
    (f = .h32 ∧ s.inLen.toNat < 4 ∧ t = s.raise .tooSmall) ∨
    (f = .h32 ∧ 4 ≤ s.inLen.toNat ∧ s.cfg.maxInput < s.inLen.toNat ∧ t = s.raise .tooLarge) ∨
    (f = .c8 ∧ s.size.toNat ≤ s.op.toNat ∧ t = { s with st := .done }) ∨
    (f = .c8 ∧ s.op.toNat < s.size.toNat ∧ s.inLen.toNat ≤ s.ip.toNat ∧ t = s.raise .truncatedInput) ∨
    (f = .l8 ∧ s.inLen.toNat ≤ s.ip.toNat ∧ t = s.raise .truncatedInput) ∨
    (f = .b16 ∧ s.inLen.toNat < s.ip.toNat + 2 ∧ t = s.raise .truncatedInput) := by
  cases f <;> simp only [State.beforeFetch, State.complete_iff, State.bytesLeft_iff] at h
  · split at h <;> [skip; split at h] <;> simp at h <;> subst h <;> simp <;> omega
  · split at h <;> [skip; split at h] <;> simp at h <;> subst h <;> simp <;> omega
  · split at h <;> simp at h; subst h; simp; omega
  · split at h <;> simp at h; subst h; simp; omega
  · simp at h

/-- What a step does before the fetch does not look at the host's pending moves. -/
theorem State.beforeFetch_host (s : State) (f : Format) (l : List HostMove) :
    ({ s with host := l } : State).beforeFetch f = (s.beforeFetch f).map fun t => { t with host := l } := by
  have ite {c : Prop} [Decidable c] (a b : Option State) (g : State → State) :
      (if c then a else b).map g = if c then a.map g else b.map g := by split <;> rfl
  cases f <;> simp only [State.beforeFetch, ite] <;> rfl

/-- A state that selects an element is BUSY. -/
theorem State.busy_of_selected {s : State} {f : Format} (h : s.selected = some f) : s.busy = true := by
  unfold State.selected at h
  split at h <;> simp_all [State.busy]

end Sys2Proof.Machine
end

