-- ==== Sys2Proof/Laws/PerInstr.lean ====
section
/-! SUPPORT. The statement made of every instruction as syntax: its encoding has the length of its format. -/
namespace Sys2Proof.Laws.EncodeLength

/-- An instruction's encoding has as many bytes as its format (30_encoding.md R80). -/
def Statement (i : Instr) : Prop := (encode i).length = i.format.bytes

theorem hdr (tag : Byte) (size : BitVec 24) : Statement (.hdr tag size) := rfl
theorem ctrl (flags : Byte) : Statement (.ctrl flags) := rfl
theorem lit (b : Byte) : Statement (.lit b) := rfl
theorem bref (count : BitVec 5) (disp : BitVec 13) : Statement (.bref count disp) := rfl
theorem start (x : BitVec 31) : Statement (.start x) := rfl

end Sys2Proof.Laws.EncodeLength
end

