-- ==== Sys2Proof/Laws/Step.lean ====
section
/-! SUPPORT. What an engine step, a host move and a step can do, said once: `engineStep_next_iff` lists every next
state of the engine, and `hostStep_next` every next state of a host move. -/
namespace Sys2Proof.Machine

/-! ### The next states of a meaning -/

theorem execHdr_next {tag : Byte} {size : BitVec 24} {s t : State} (h : execHdr tag size s = .next t) :
    s.st = .check ∧
      (s.beforeFetch .h32 = some t ∨
        (s.beforeFetch .h32 = none ∧ tag = formatTag ∧
          t = { s with size := size, ip := 4, op := 0, st := .ctrl }) ∨
        (s.beforeFetch .h32 = none ∧ tag ≠ formatTag ∧ t = s.raise .invalidTag)) := by
  obtain ⟨hs, h⟩ := whenSelected_next.1 h
  refine ⟨(State.selected_h32 s).1 hs, ?_⟩
  split at h
  · next u hu => cases h; exact .inl hu
  · next hu =>
    split at h <;> cases h
    · exact .inr (.inl ⟨hu, ‹_›, rfl⟩)
    · exact .inr (.inr ⟨hu, ‹_›, rfl⟩)

theorem execCtrl_next {flags : Byte} {s t : State} (h : execCtrl flags s = .next t) :
    s.st = .ctrl ∧
      (s.beforeFetch .c8 = some t ∨
        (s.beforeFetch .c8 = none ∧
          t = { s with ctrl := flags, ip := s.ip + 1, flagIdx := 0, st := .token })) := by
  obtain ⟨hs, h⟩ := whenSelected_next.1 h
  refine ⟨(State.selected_c8 s).1 hs, ?_⟩
  split at h
  · next u hu => cases h; exact .inl hu
  · next hu => cases h; exact .inr ⟨hu, rfl⟩

theorem execLit_next {b : Byte} {s t : State} (h : execLit b s = .next t) :
    s.selected = some .l8 ∧
      (s.beforeFetch .l8 = some t ∨
        (s.beforeFetch .l8 = none ∧ t = (({ s with ip := s.ip + 1 } : State).emit b).afterToken)) := by
  obtain ⟨hs, h⟩ := whenSelected_next.1 h
  refine ⟨hs, ?_⟩
  split at h
  · next u hu => cases h; exact .inl hu
  · next hu => cases h; exact .inr ⟨hu, rfl⟩

theorem execBref_next {count : BitVec 5} {disp : BitVec 13} {s t : State}
    (h : execBref count disp s = .next t) :
    s.selected = some .b16 ∧
      (s.beforeFetch .b16 = some t ∨
        (s.beforeFetch .b16 = none ∧ s.op.toNat < disp.toNat ∧ t = s.raise .invalidBackReference) ∨
        (s.beforeFetch .b16 = none ∧ disp.toNat ≤ s.op.toNat ∧
          t = { s with ip := s.ip + 2, disp := disp, rem := s.copyLength count, st := .copy })) := by
  obtain ⟨hs, h⟩ := whenSelected_next.1 h
  refine ⟨hs, ?_⟩
  split at h
  · next u hu => cases h; exact .inl hu
  · next hu =>
    split at h <;> cases h
    · exact .inr (.inl ⟨hu, ‹_›, rfl⟩)
    · exact .inr (.inr ⟨hu, Nat.le_of_not_lt ‹_›, rfl⟩)

theorem execStart_next {x : BitVec 31} {s t : State} (h : execStart x s = .next t) :
    (s.busy = true ∧ t = s) ∨ (s.busy = false ∧ t = s.startRun) := by
  unfold execStart at h
  split at h <;> cases h <;> simp_all

/-- The bytes written are `min(count, size − op)`: it fits the register, since `count` does. -/
theorem State.copyLength_toNat (count : BitVec 5) (s : State) :
    (s.copyLength count).toNat = min count.toNat (s.size.toNat - s.op.toNat) := by
  have := count.isLt
  simp only [State.copyLength, BitVec.toNat_ofNat]
  exact Nat.mod_eq_of_lt (by omega)

theorem State.copyReady_iff (s : State) :
    s.copyReady = true ↔ 1 ≤ s.rem.toNat ∧ s.rem.toNat ≤ s.size.toNat - s.op.toNat ∧ 1 ≤ s.disp.toNat ∧
      s.disp.toNat ≤ s.op.toNat ∧ s.flagIdx.toNat ≤ 7 := by
  simp [State.copyReady, and_assoc]

/-! ### The bytes fetched -/

/-- The 16-bit token at the cursor. -/
def State.tokenAt (s : State) : BitVec 16 :=
  bigEndian16 (s.inByte s.ip.toNat) (s.inByte (s.ip.toNat + 1))

theorem runElement_h32 (s : State) (h : 4 ≤ s.cfg.inCap) :
    runElement .h32 s =
      exec (.hdr (s.inByte 0) (littleEndian24 (s.inByte 1) (s.inByte 2) (s.inByte 3))) s := by
  simp [runElement, State.fetchBytes, State.fetchOffset, Format.bytes, State.readIn_eq, h, List.range',
    decode]

theorem runElement_c8 (s : State) (h : s.ip.toNat < s.cfg.inCap) :
    runElement .c8 s = exec (.ctrl (s.inByte s.ip.toNat)) s := by
  simp [runElement, State.fetchBytes, State.fetchOffset, Format.bytes, State.readIn_eq,
    Nat.succ_le_of_lt h, List.range', decode]

theorem runElement_l8 (s : State) (h : s.ip.toNat < s.cfg.inCap) :
    runElement .l8 s = exec (.lit (s.inByte s.ip.toNat)) s := by
  simp [runElement, State.fetchBytes, State.fetchOffset, Format.bytes, State.readIn_eq,
    Nat.succ_le_of_lt h, List.range', decode]

theorem runElement_b16 (s : State) (h : s.ip.toNat + 2 ≤ s.cfg.inCap) :
    runElement .b16 s = exec (.bref (extract s.tokenAt).1 (extract s.tokenAt).2) s := by
  simp [runElement, State.fetchBytes, State.fetchOffset, Format.bytes, State.readIn_eq, h, List.range',
    decode, State.tokenAt]

/-- An element that lies outside `IN` stops the machine. -/
theorem runElement_next {f : Format} {s t : State} (h : runElement f s = .next t) (hf : f ≠ .reg32) :
    s.fetchOffset f + f.bytes ≤ s.cfg.inCap := by
  by_contra hc
  have : s.fetchBytes f = none := by
    simp only [State.fetchBytes, State.readIn_eq]
    rw [if_neg]
    cases f <;> simp_all [Format.bytes]
  simp [runElement, this] at h

/-! ### The next states of an engine step -/

/-- Where the token being completed leaves the sequencer (41_control.md R124), from the state before the step. -/
def State.tokenEndSt (s : State) : St :=
  if s.size.toNat ≤ s.op.toNat + 1 then .done else if s.flagIdx.toNat + 1 = 8 then .ctrl else .token

/-- A completed token leaves the sequencer in DONE with the output at `size`, in CTRL with all flags used and room left,
or in TOKEN with flags and room left. -/
theorem State.tokenEndSt_cases (s : State) :
    (s.tokenEndSt = .done ∧ s.size.toNat ≤ s.op.toNat + 1) ∨
    (s.tokenEndSt = .ctrl ∧ s.op.toNat + 1 < s.size.toNat ∧ s.flagIdx.toNat = 7) ∨
    (s.tokenEndSt = .token ∧ s.op.toNat + 1 < s.size.toNat ∧ s.flagIdx.toNat ≠ 7) := by
  unfold State.tokenEndSt
  split <;> [skip; split] <;> simp <;> omega

/-- The LIT step's writes as one update. -/
theorem State.literal_eq (s : State) (b : Byte) (h : s.op.toNat < s.size.toNat) :
    (({ s with ip := s.ip + 1 } : State).emit b).afterToken =
      { s with
        outMem := s.outMem.write s.op.toNat b, ip := s.ip + 1, op := s.op + 1, flagIdx := s.flagIdx + 1
        st := s.tokenEndSt } := by
  simp only [State.afterToken, State.emit, s.op_add_one h]; rfl

/-- The last COPY step's writes as one update. -/
theorem State.copyLast_eq (s : State) (h : s.op.toNat < s.size.toNat) :
    ({ s.emit s.windowRead with rem := s.rem - 1 } : State).afterToken =
      { s with
        outMem := s.outMem.write s.op.toNat s.windowRead, op := s.op + 1, rem := s.rem - 1
        flagIdx := s.flagIdx + 1, st := s.tokenEndSt } := by
  simp only [State.afterToken, State.emit, s.op_add_one h]; rfl

/-- The failures a step can take and where (60_exceptions.md R200, R206). -/
inductive Fails (s : State) : ErrCode → Prop where
  | tooSmall (st : s.st = .check) (len : s.inLen.toNat < 4) : Fails s .tooSmall
  | tooLarge (st : s.st = .check) (ge : 4 ≤ s.inLen.toNat) (len : s.cfg.maxInput < s.inLen.toNat) :
      Fails s .tooLarge
  | invalidTag (st : s.st = .check) (ge : 4 ≤ s.inLen.toNat) (le : s.inLen.toNat ≤ s.cfg.maxInput)
      (tag : s.inByte 0 ≠ formatTag) : Fails s .invalidTag
  | noControl (st : s.st = .ctrl) (room : s.op.toNat < s.size.toNat) (len : s.inLen.toNat ≤ s.ip.toNat) :
      Fails s .truncatedInput
  | noLiteral (sel : s.selected = some .l8) (len : s.inLen.toNat ≤ s.ip.toNat) : Fails s .truncatedInput
  | noToken (sel : s.selected = some .b16) (len : s.inLen.toNat < s.ip.toNat + 2) : Fails s .truncatedInput
  | farBack (sel : s.selected = some .b16) (len : s.ip.toNat + 2 ≤ s.inLen.toNat)
      (cap : s.ip.toNat + 2 ≤ s.cfg.inCap) (far : s.op.toNat < (extract s.tokenAt).2.toNat) :
      Fails s .invalidBackReference

/-- Every next state of an engine step. -/
inductive EngineMove (s : State) : State → Prop where
  | rest (h : s.busy = false) : EngineMove s s
  | fail (e : ErrCode) (h : Fails s e) : EngineMove s (s.raise e)
  | finish (st : s.st = .ctrl) (full : s.size.toNat ≤ s.op.toNat) : EngineMove s { s with st := .done }
  | header (st : s.st = .check) (ge : 4 ≤ s.inLen.toNat) (le : s.inLen.toNat ≤ s.cfg.maxInput)
      (tag : s.inByte 0 = formatTag) :
      EngineMove s
        { s with
          size := littleEndian24 (s.inByte 1) (s.inByte 2) (s.inByte 3), ip := 4, op := 0, st := .ctrl }
  | control (st : s.st = .ctrl) (room : s.op.toNat < s.size.toNat) (len : s.ip.toNat < s.inLen.toNat)
      (cap : s.ip.toNat < s.cfg.inCap) :
      EngineMove s { s with ctrl := s.inByte s.ip.toNat, ip := s.ip + 1, flagIdx := 0, st := .token }
  | literal (sel : s.selected = some .l8) (len : s.ip.toNat < s.inLen.toNat)
      (cap : s.ip.toNat < s.cfg.inCap) :
      EngineMove s
        { s with
          outMem := s.outMem.write s.op.toNat (s.inByte s.ip.toNat), ip := s.ip + 1, op := s.op + 1
          flagIdx := s.flagIdx + 1, st := s.tokenEndSt }
  | backRef (sel : s.selected = some .b16) (len : s.ip.toNat + 2 ≤ s.inLen.toNat)
      (cap : s.ip.toNat + 2 ≤ s.cfg.inCap) (near : (extract s.tokenAt).2.toNat ≤ s.op.toNat) :
      EngineMove s
        { s with
          ip := s.ip + 2, disp := (extract s.tokenAt).2, rem := s.copyLength (extract s.tokenAt).1
          st := .copy }
  | copyLast (st : s.st = .copy) (ready : s.copyReady = true) (last : s.rem.toNat - 1 = 0) :
      EngineMove s
        { s with
          outMem := s.outMem.write s.op.toNat s.windowRead, op := s.op + 1, rem := s.rem - 1
          flagIdx := s.flagIdx + 1, st := s.tokenEndSt }
  | copyMore (st : s.st = .copy) (ready : s.copyReady = true) (more : s.rem.toNat - 1 ≠ 0) :
      EngineMove s
        { s with
          outMem := s.outMem.write s.op.toNat s.windowRead, op := s.op + 1, rem := s.rem - 1, st := .copy }

theorem copyStep_next {s t : State} (hst : s.st = .copy) (h : copyStep s = .next t) : EngineMove s t := by
  unfold copyStep at h
  split at h
  · split at h <;> cases h
    · next hr hl =>
      have := s.copyReady_iff.1 hr
      rw [s.copyLast_eq (by omega)]
      exact .copyLast hst hr hl
    · exact .copyMore hst ‹_› ‹_›
  · cases h

theorem elementStep_next {s t : State} (h : elementStep s = .next t) : EngineMove s t := by
  unfold elementStep at h
  split at h
  · cases h
  · next f hf =>
    split at h
    · next u hu =>
      cases h
      rcases State.beforeFetch_some hu with ⟨rfl, h1, rfl⟩ | ⟨rfl, h1, h2, rfl⟩ | ⟨rfl, h1, rfl⟩ |
        ⟨rfl, h1, h2, rfl⟩ | ⟨rfl, h1, rfl⟩ | ⟨rfl, h1, rfl⟩
      · exact .fail _ (.tooSmall ((State.selected_h32 s).1 hf) h1)
      · exact .fail _ (.tooLarge ((State.selected_h32 s).1 hf) h1 h2)
      · exact .finish ((State.selected_c8 s).1 hf) h1
      · exact .fail _ (.noControl ((State.selected_c8 s).1 hf) h1 h2)
      · exact .fail _ (.noLiteral hf h1)
      · exact .fail _ (.noToken hf h1)
    · next hu =>
      have hcap := runElement_next h (fun hr => State.selected_reg32 s (hr ▸ hf))
      cases f with
      | h32 =>
        rw [runElement_h32 s (by simpa [State.fetchOffset, Format.bytes] using hcap)] at h
        obtain ⟨hst, h | ⟨-, ht, rfl⟩ | ⟨-, ht, rfl⟩⟩ := execHdr_next h
        · simp [hu] at h
        · obtain ⟨h1, h2⟩ := (State.beforeFetch_h32_none s).1 hu
          exact .header hst h1 h2 ht
        · obtain ⟨h1, h2⟩ := (State.beforeFetch_h32_none s).1 hu
          exact .fail _ (.invalidTag hst h1 h2 ht)
      | c8 =>
        rw [runElement_c8 s (by simpa [State.fetchOffset, Format.bytes] using hcap)] at h
        obtain ⟨hst, h | ⟨-, rfl⟩⟩ := execCtrl_next h
        · simp [hu] at h
        · obtain ⟨h1, h2⟩ := (State.beforeFetch_c8_none s).1 hu
          exact .control hst h1 h2 (by simpa [State.fetchOffset, Format.bytes] using hcap)
      | l8 =>
        rw [runElement_l8 s (by simpa [State.fetchOffset, Format.bytes] using hcap)] at h
        obtain ⟨hst, h | ⟨-, rfl⟩⟩ := execLit_next h
        · simp [hu] at h
        · rw [s.literal_eq _ ((State.selected_l8 s).1 hf).2.2.1]
          exact .literal hf ((State.beforeFetch_l8_none s).1 hu)
            (by simpa [State.fetchOffset, Format.bytes] using hcap)
      | b16 =>
        rw [runElement_b16 s (by simpa [State.fetchOffset, Format.bytes] using hcap)] at h
        obtain ⟨hst, h | ⟨-, hd, rfl⟩ | ⟨-, hd, rfl⟩⟩ := execBref_next h
        · simp [hu] at h
        · exact .fail _ (.farBack hf ((State.beforeFetch_b16_none s).1 hu)
            (by simpa [State.fetchOffset, Format.bytes] using hcap) hd)
        · exact .backRef hf ((State.beforeFetch_b16_none s).1 hu)
            (by simpa [State.fetchOffset, Format.bytes] using hcap) hd
      | reg32 => exact absurd hf (State.selected_reg32 s)

theorem engineStep_busy {s : State} (h : s.st = .check ∨ s.st = .ctrl ∨ s.st = .token) :
    engineStep s = elementStep s := by
  rcases h with h | h | h <;> simp [engineStep, h]

theorem engineStep_copy {s : State} (h : s.st = .copy) : engineStep s = copyStep s := by
  simp [engineStep, h]

theorem engineStep_rest {s : State} (h : s.busy = false) : engineStep s = .next s := by
  rcases (State.not_busy_iff s).1 h with h | h | h <;> simp [engineStep, h]

theorem elementStep_before {s t : State} {f : Format} (hf : s.selected = some f)
    (hb : s.beforeFetch f = some t) : elementStep s = .next t := by
  simp [elementStep, hf, hb]

theorem elementStep_run {s : State} {f : Format} (hf : s.selected = some f)
    (hb : s.beforeFetch f = none) : elementStep s = runElement f s := by
  simp [elementStep, hf, hb]

theorem State.engine_selects {s : State} {f : Format} (hf : s.selected = some f) :
    s.st = .check ∨ s.st = .ctrl ∨ s.st = .token := by
  unfold State.selected at hf; cases h : s.st <;> simp_all

/-- A failing step answers the failure entry. -/
theorem engineStep_fail {s : State} {e : ErrCode} (h : Fails s e) : engineStep s = .next (s.raise e) := by
  cases h with
  | tooSmall st len =>
    rw [engineStep_busy (.inl st)]
    exact elementStep_before ((State.selected_h32 s).2 st) (by simp [State.beforeFetch, len])
  | tooLarge st ge len =>
    rw [engineStep_busy (.inl st)]
    exact elementStep_before ((State.selected_h32 s).2 st)
      (by simp [State.beforeFetch, len, show ¬s.inLen.toNat < 4 by omega])
  | invalidTag st ge le tag =>
    have hs := (State.selected_h32 s).2 st
    have hb := (State.beforeFetch_h32_none s).2 ⟨ge, le⟩
    rw [engineStep_busy (.inl st), elementStep_run hs hb,
      runElement_h32 s (by show 4 ≤ s.cfg.maxInput; omega)]
    simp [exec, execHdr, whenSelected_pos hs, hb, tag]
  | noControl st room len =>
    rw [engineStep_busy (.inr (.inl st))]
    exact elementStep_before ((State.selected_c8 s).2 st)
      (by simp [State.beforeFetch, State.complete, State.bytesLeft, Nat.not_le.2 room]; omega)
  | noLiteral sel len =>
    rw [engineStep_busy (State.engine_selects sel)]
    exact elementStep_before sel (by simp [State.beforeFetch, State.bytesLeft]; omega)
  | noToken sel len =>
    rw [engineStep_busy (State.engine_selects sel)]
    exact elementStep_before sel (by simp [State.beforeFetch, State.bytesLeft]; omega)
  | farBack sel len cap far =>
    have hb := (State.beforeFetch_b16_none s).2 len
    rw [engineStep_busy (State.engine_selects sel), elementStep_run sel hb, runElement_b16 s cap]
    simp [exec, execBref, whenSelected_pos sel, hb, far]

/-- An engine step answers a next state exactly where one of these cases holds. -/
theorem engineStep_next_iff (s t : State) : engineStep s = .next t ↔ EngineMove s t := by
  constructor
  · intro h
    cases hst : s.st with
    | idle => rw [engineStep_rest (by simp [State.busy, hst])] at h; cases h; exact .rest (by simp [State.busy, hst])
    | done => rw [engineStep_rest (by simp [State.busy, hst])] at h; cases h; exact .rest (by simp [State.busy, hst])
    | error => rw [engineStep_rest (by simp [State.busy, hst])] at h; cases h; exact .rest (by simp [State.busy, hst])
    | copy => exact copyStep_next hst (by rwa [engineStep_copy hst] at h)
    | check => exact elementStep_next (by rwa [engineStep_busy (.inl hst)] at h)
    | ctrl => exact elementStep_next (by rwa [engineStep_busy (.inr (.inl hst))] at h)
    | token => exact elementStep_next (by rwa [engineStep_busy (.inr (.inr hst))] at h)
  · intro h
    cases h with
    | rest h => exact engineStep_rest h
    | fail e h => exact engineStep_fail h
    | finish st full =>
      rw [engineStep_busy (.inr (.inl st))]
      exact elementStep_before ((State.selected_c8 s).2 st) (by simp [State.beforeFetch, State.complete, full])
    | header st ge le tag =>
      have hs := (State.selected_h32 s).2 st
      have hb := (State.beforeFetch_h32_none s).2 ⟨ge, le⟩
      rw [engineStep_busy (.inl st), elementStep_run hs hb,
        runElement_h32 s (by show 4 ≤ s.cfg.maxInput; omega)]
      simp [exec, execHdr, whenSelected_pos hs, hb, tag]
    | control st room len cap =>
      have hs := (State.selected_c8 s).2 st
      have hb := (State.beforeFetch_c8_none s).2 ⟨room, len⟩
      rw [engineStep_busy (.inr (.inl st)), elementStep_run hs hb, runElement_c8 s cap]
      simp [exec, execCtrl, whenSelected_pos hs, hb]
    | literal sel len cap =>
      have hb := (State.beforeFetch_l8_none s).2 len
      rw [engineStep_busy (State.engine_selects sel), elementStep_run sel hb, runElement_l8 s cap]
      rw [← s.literal_eq _ ((State.selected_l8 s).1 sel).2.2.1]
      simp [exec, execLit, whenSelected_pos sel, hb]
    | backRef sel len cap near =>
      have hb := (State.beforeFetch_b16_none s).2 len
      rw [engineStep_busy (State.engine_selects sel), elementStep_run sel hb, runElement_b16 s cap]
      simp [exec, execBref, whenSelected_pos sel, hb, Nat.not_lt.2 near]
    | copyLast st ready last =>
      have := s.copyReady_iff.1 ready
      rw [← s.copyLast_eq (by omega), engineStep_copy st, copyStep, if_pos ready, if_pos last]
    | copyMore st ready more => rw [engineStep_copy st, copyStep, if_pos ready, if_neg more]; rfl

/-- Loading bytes keeps the canonical form. -/
theorem Memory.load_wf {m : Memory} (h : m.wf) (a : Nat) (bs : List Byte) : (m.load a bs).wf := by
  induction bs generalizing m a with
  | nil => exact h
  | cons b bs ih => exact ih (Memory.write_wf h a b) (a + 1)

/-- The memories of the reset state are in canonical form. -/
theorem State.reset_memories_wf : State.reset.inMem.wf ∧ State.reset.outMem.wf := by decide

/-! ### The host's moves and the step -/

/-- A CMD write is a START exactly when bit 0 is set. -/
theorem hostWriteCmd_eq (w : Word) (s : State) :
    hostWriteCmd w s = if w.getLsbD 0 then exec (.start (w.extractLsb' 1 31)) s else .next s := by
  simp only [hostWriteCmd, bytesOfWord, decode, wordOfBytes_extract]
  split
  · next h => split at h <;> simp_all
  · next h => split at h <;> simp_all

/-- Every next state of a host register write (44_host.md R182). -/
theorem hostWrite_next {n : Nat} {w : Word} {s t : State} (h : hostWrite n w s = .next t) :
    t = s ∨ (n = 0 ∧ w.getLsbD 0 = true ∧ s.busy = false ∧ t = s.startRun) ∨
      (n = 3 ∧ s.busy = false ∧ t = { s with inLen := w }) := by
  unfold hostWrite at h
  split at h
  · next hn =>
    rw [hostWriteCmd_eq] at h
    split at h
    · next hw =>
      rcases execStart_next (x := w.extractLsb' 1 31) h with ⟨-, rfl⟩ | ⟨hb, rfl⟩
      · exact .inl rfl
      · exact .inr (.inl ⟨hn, hw, hb, rfl⟩)
    · cases h; exact .inl rfl
  · unfold hostWriteReg at h
    split at h
    · next hn => cases h; exact .inr (.inr ⟨hn.1, hn.2, rfl⟩)
    · cases h; exact .inl rfl

/-- Every next state of a host register read: one reply, and nothing else of the machine's. -/
theorem hostReadReg_next {n : Nat} {s t : State} (h : hostReadReg n s = .next t) :
    t = s.replyUnspecified (regMask n) ∧ s.unspecifiedReg n = true ∨
      t = s.reply (s.regValue n) ∧ s.unspecifiedReg n = false := by
  unfold hostReadReg at h
  split at h
  · cases h; exact .inl ⟨rfl, ‹_›⟩
  · split at h <;> cases h
    exact .inr ⟨rfl, by simp_all⟩

/-- Every next state of a host move. -/
inductive HostEffect (s : State) : HostMove → State → Prop where
  | reset : HostEffect s .reset s.resetSignal
  | reply (m : HostMove) (v : Word) : HostEffect s m (s.reply v)
  | replyUnspecified (m : HostMove) (mask : Word) : HostEffect s m (s.replyUnspecified mask)
  | ignored (n : Nat) (w : Word) : HostEffect s (.writeReg n w) s
  | start (w : Word) (bit : w.getLsbD 0 = true) (idle : s.busy = false) : HostEffect s (.writeReg 0 w) s.startRun
  | inLen (w : Word) (idle : s.busy = false) : HostEffect s (.writeReg 3 w) { s with inLen := w }
  | writeIn (a : Nat) (b : Byte) (idle : s.busy = false) (cap : a < s.cfg.inCap) :
      HostEffect s (.writeIn a b) { s with inMem := s.inMem.write a b }
  | writeOut (a : Nat) (b : Byte) (idle : s.busy = false) (cap : a < s.cfg.outCap) :
      HostEffect s (.writeOut a b) { s with outMem := s.outMem.write a b, outHost := addOffset s.outHost a }
  | pass (t : State) (h : EngineMove s t) : HostEffect s .pass t

theorem hostStep_next {m : HostMove} {s t : State} (h : hostStep m s = .next t) : HostEffect s m t := by
  cases m with
  | reset => cases h; exact .reset
  | readReg n =>
    rcases hostReadReg_next h with ⟨rfl, -⟩ | ⟨rfl, -⟩
    · exact .replyUnspecified _ _
    · exact .reply _ _
  | writeReg n w =>
    rcases hostWrite_next h with rfl | ⟨rfl, hw, hb, rfl⟩ | ⟨rfl, hb, rfl⟩
    · exact .ignored n w
    · exact .start w hw hb
    · exact .inLen w hb
  | readIn a =>
    simp only [hostStep, hostReadIn] at h
    split at h <;> cases h
    exact .reply _ _
  | writeIn a b =>
    simp only [hostStep, hostWriteIn] at h
    split at h
    · cases h
    · split at h <;> cases h
      exact .writeIn a b (by simp_all) ‹_›
  | readOut a =>
    simp only [hostStep, hostReadOut] at h
    split at h
    · split at h <;> cases h
      · exact .replyUnspecified _ _
      · exact .reply _ _
    · cases h
  | writeOut a b =>
    simp only [hostStep, hostWriteOut] at h
    split at h
    · cases h
    · split at h <;> cases h
      exact .writeOut a b (by simp_all) ‹_›
  | pass => exact .pass t ((engineStep_next_iff s t).1 h)
  | await =>
    rcases hostReadReg_next h with ⟨rfl, -⟩ | ⟨rfl, -⟩
    · exact .replyUnspecified _ _
    · exact .reply _ _

/-- With no host move pending, a step is an engine step. -/
theorem step_engine {s : State} (h : s.host = []) : step s = engineStep s := by
  simp [step, agentStep, h]

/-- With a host move pending, a step is that move, but for an `await` while BUSY. -/
theorem step_host {s : State} {m : HostMove} {ms : List HostMove} (h : s.host = m :: ms)
    (ha : m ≠ .await ∨ s.busy = false) : step s = hostStep m { s with host := ms } := by
  simp only [step, agentStep, h]
  rw [if_neg]
  rintro ⟨rfl, hb⟩
  simp_all

/-- An `await` leaves the step to the engine while BUSY. -/
theorem step_await {s : State} {ms : List HostMove} (h : s.host = .await :: ms) (hb : s.busy = true) :
    step s = engineStep s := by
  simp [step, agentStep, h, hb]

/-- Every next state of a step: an engine step, or a host move taken off the list. -/
theorem step_next {s t : State} (h : step s = .next t) :
    EngineMove s t ∨ ∃ m ms, s.host = m :: ms ∧ HostEffect { s with host := ms } m t := by
  cases hh : s.host with
  | nil => rw [step_engine hh] at h; exact .inl ((engineStep_next_iff s t).1 h)
  | cons m ms =>
    by_cases ha : m = .await ∧ s.busy = true
    · obtain ⟨rfl, hb⟩ := ha
      rw [step_await hh hb] at h; exact .inl ((engineStep_next_iff s t).1 h)
    · rw [step_host hh (by
        rcases not_and_or.1 ha with h | h
        · exact .inl h
        · exact .inr (by simpa using h))] at h
      exact .inr ⟨m, ms, rfl, hostStep_next h⟩

end Sys2Proof.Machine
end

