-- ==== Sys2Proof/Laws/Run.lean ====
section
/-! SUPPORT. Runs of several steps: how they are put together. -/
namespace Sys2Proof.Machine

theorem run_zero (s : State) : Host.Core.run core 0 s = .next s := rfl

theorem run_succ {s t : State} (h : step s = .next t) (k : Nat) :
    Host.Core.run core (k + 1) s = Host.Core.run core k t := by
  have h : Host.Core.step core s = .next t := h
  simp [Host.Core.run, h]

/-- A run may be cut anywhere. -/
theorem run_add {s t : State} {k : Nat} (h : Host.Core.run core k s = .next t) (j : Nat) :
    Host.Core.run core (k + j) s = Host.Core.run core j t := by
  induction k generalizing s with
  | zero => cases h; simp
  | succ k ih =>
    cases hs : step s with
    | next u =>
      rw [run_succ hs] at h
      rw [show k + 1 + j = k + j + 1 by omega, run_succ hs]
      exact ih h
    | fault e =>
      have hs : Host.Core.step core s = .fault e := hs
      simp [Host.Core.run, hs] at h
    | refused r =>
      have hs : Host.Core.step core s = .refused r := hs
      simp [Host.Core.run, hs] at h

end Sys2Proof.Machine
end

