-- ==== Sys2Proof/Tests/Slice0.lean ====
section
/-! SUPPORT. The model's own tests: what WellFormed refuses, words written out from the spec, single steps with results
from 95_test_vectors.md, and for every statement a concrete state and operands that meet its hypotheses. -/
namespace Sys2Proof.Tests

open Sys2Proof Sys2Proof.Machine

/-! ### WellFormed refuses an ill-formed term for each check -/

theorem test_wf_refuses_wrong_tag : (Instr.hdr 0x11 5).wf = false := by decide
theorem test_wf_refuses_count_2 : (Instr.bref 2 1).wf = false := by decide
theorem test_wf_refuses_count_19 : (Instr.bref 19 1).wf = false := by decide
theorem test_wf_refuses_disp_0 : (Instr.bref 3 0).wf = false := by decide
theorem test_wf_refuses_disp_4097 : (Instr.bref 3 4097).wf = false := by decide

/-! ### Words written out bit by bit from the encodings of 30_encoding.md -/

/-- R81: tag 0001 0000, size 0x123456 low byte first (vector H7). -/
theorem test_decode_hdr :
    decode .h32 [0b00010000, 0b01010110, 0b00110100, 0b00010010] = .ok (.hdr 0x10 0x123456, []) := by rfl
/-- R82: flags 1,0,1,0,0,1,0,1 (vector 2.2, 0xA5). -/
theorem test_decode_ctrl : decode .c8 [0b10100101] = .ok (.ctrl 0xA5, []) := by rfl
/-- R83. -/
theorem test_decode_lit : decode .l8 [0b01000001] = .ok (.lit 0x41, []) := by rfl
/-- R84: n = 0111, d = 0000 0000 0000: count 10, disp 1 (vector 2.3, 0x7000). -/
theorem test_decode_bref : decode .b16 [0b01110000, 0b00000000] = .ok (.bref 10 1, []) := by rfl
/-- R84: the first byte is the most significant (vector 2.3, 0x8123). -/
theorem test_decode_bref_byte_order : decode .b16 [0x81, 0x23] = .ok (.bref 11 292, []) := by rfl
/-- R34: bit 0 set is START, bits 31:1 are ignored. -/
theorem test_decode_start : decode .reg32 [0x80, 0x00, 0x00, 0x03] = .ok (.start 0x40000001, []) := by rfl
/-- R34, vector S6: bit 0 clear is no START. -/
theorem test_decode_no_start : decode .reg32 [0xFF, 0xFF, 0xFF, 0xFE] = .error .notStart := by rfl
/-- A short token is rejected by name. -/
theorem test_decode_short_token : decode .b16 [0x30] = .error (.tooFewBytes .b16 1) := by rfl
/-- R92's worked expansion: `TOKENS LIT 'A'; BREF 10, 1` is `40 41 70 00`. -/
theorem test_tokens_expansion :
    assemble (expandTokens [.lit 0x41, .bref 10 1]) = [0x40, 0x41, 0x70, 0x00] := by decide
theorem test_table_word_hdr : decodeTableWord 32 0x10050000 = some (.hdr 0x10 5) := by decide
theorem test_table_word_start : decodeTableWord 32 1 = some (.start 0) := by decide
theorem test_table_word_bref : decodeTableWord 16 0x3002 = some (.bref 6 3) := by decide

/-! ### States of program P1 (95_test_vectors.md section 3), and where it would fail -/

/-- `10 0A 00 00 10 41 42 43 30 02 58`. -/
def p1 : List Byte := [0x10, 0x0A, 0x00, 0x00, 0x10, 0x41, 0x42, 0x43, 0x30, 0x02, 0x58]

/-- A machine with a buffer loaded and its length written. -/
def loaded (bs : List Byte) : State :=
  { State.reset with inMem := Memory.load [] 0 bs, inLen := BitVec.ofNat 32 bs.length }

def sCheck : State := { loaded p1 with st := .check }
def sCtrl : State := { loaded p1 with st := .ctrl, size := 10, ip := 4 }
def sLit : State := { sCtrl with st := .token, ctrl := 0x10, ip := 5 }
def sBref : State :=
  { sLit with ip := 8, op := 3, flagIdx := 3, outMem := [(0, 0x41), (1, 0x42), (2, 0x43)] }
def sCopy : State := { sBref with ip := 10, disp := 3, rem := 6, st := .copy }
def sCopyLast : State :=
  { sCopy with
    op := 8, rem := 1
    outMem := [(0, 0x41), (1, 0x42), (2, 0x43), (3, 0x41), (4, 0x42), (5, 0x43), (6, 0x41), (7, 0x42)] }
def sDone : State :=
  { sCopyLast with
    ip := 11, op := 10, rem := 0, flagIdx := 5, st := .done
    outMem := sCopyLast.outMem ++ [(8, 0x43), (9, 0x58)] }
/-- P1 with a back-reference of displacement 4 at output length 3. -/
def sFar : State := { sBref with inMem := sBref.inMem.write 9 0x03 }
def sError : State := sFar.raise .invalidBackReference
/-- P1 with the input ending before the control byte, the literal, and the second byte of the back-reference. -/
def sCtrlEnd : State := { sCtrl with inLen := 4 }
def sLitEnd : State := { sLit with inLen := 5 }
def sBrefEnd : State := { sBref with inLen := 9 }

/-- The next state, if the outcome is one. -/
def nextOf (o : Out) : Option State :=
  match o with
  | .next t => some t
  | .fault _ => none
  | .refused _ => none

/-! ### Single steps, with results from 95_test_vectors.md -/

/-- P1 step 1. -/
theorem test_hdr_parses : (nextOf (step sCheck)).map (fun t => (t.st, t.ip, t.size)) = some (.ctrl, 4, 10) := by decide
/-- E4. -/
theorem test_hdr_wrong_tag :
    (nextOf (step { sCheck with inMem := sCheck.inMem.write 0 0x11 })).map (fun t => (t.errcode, t.size)) =
      some (.invalidTag, 0) := by decide
/-- P1 step 2. -/
theorem test_ctrl_fetches :
    (nextOf (step sCtrl)).map (fun t => (t.st, t.ip, t.ctrl)) = some (.token, 5, 0x10) := by decide
/-- H4: size 0 ends the run with no byte after the header. -/
theorem test_ctrl_ends_empty_run :
    (nextOf (step { sCtrlEnd with size := 0 })).map (·.statusWord) = some 0x25 := by decide
/-- P1 step 3. -/
theorem test_lit_appends :
    (nextOf (step sLit)).map (fun t => (t.op, t.flagIdx, t.outMem.read 0)) = some (1, 1, some 0x41) := by decide
/-- L3: the eighth flag sends the engine to CTRL. -/
theorem test_lit_spends_the_control_byte :
    (nextOf (step { sLit with ctrl := 0x00, flagIdx := 7 })).map (fun t => (t.st, t.flagIdx)) =
      some (.ctrl, 8) := by decide
/-- P1 step 6. -/
theorem test_bref_opens_copy :
    (nextOf (step sBref)).map (fun t => (t.st, t.ip, t.disp, t.rem)) = some (.copy, 10, 3, 6) := by decide
/-- B2: disp 4 > op 3. -/
theorem test_bref_too_far :
    (nextOf (step sFar)).map (fun t => (t.errcode, t.ip, t.op)) = some (.invalidBackReference, 8, 3) := by decide
/-- P1 step 7. -/
theorem test_copy_reads_the_window :
    (nextOf (step sCopy)).map (fun t => (t.st, t.op, t.rem, t.outMem.read 3)) =
      some (.copy, 4, 5, some 0x41) := by decide
/-- B12: `size` is tested before the eighth flag. -/
theorem test_copy_ends_the_run_first :
    (nextOf (step { sCopyLast with size := 9, flagIdx := 7 })).map (fun t => (t.st, t.flagIdx)) =
      some (.done, 8) := by decide
/-- R180's example: STATUS reads 0x11 after START. -/
theorem test_start_begins_a_run :
    (nextOf (step { loaded p1 with host := [.writeReg 0 1] })).map (·.statusWord) = some 0x11 := by decide
/-- S4. -/
theorem test_start_while_busy_is_ignored :
    nextOf (step { sCopy with host := [.writeReg 0 1] }) = some sCopy := by decide
/-- The next step runs a placed HDR word, and a placed START word, from reset. -/
theorem test_placed_hdr_runs :
    (nextOf (step (State.reset.withFetchWord 32 0x10050000))).map (fun t => (t.st, t.size)) = some (.ctrl, 5) := by decide
theorem test_placed_start_runs :
    (nextOf (step (State.reset.withFetchWord 32 1))).map (·.st) = some .check := by decide

/-! ### Hypotheses of the statements, met -/

theorem witness_DecodeOfEncode :
    (Instr.bref 3 1).wf = true ∧ (Instr.bref 18 4096).wf = true ∧ (Instr.hdr 0x10 0xFFFFFF).wf = true := by decide
theorem witness_EncodeOfDecode : decode .b16 [0xFF, 0xFF, 0x00] = .ok (.bref 18 4096, [0x00]) := by rfl
theorem witness_OnlyWrongTagIsIllegal :
    (Format.b16 ≠ .reg32 ∧ Format.b16.bytes ≤ [(0x30 : Byte), 0x02].length) ∧
    decode .h32 [0x11, 0x05, 0x00, 0x00] = .ok (.hdr 0x11 5, []) ∧
    (sCheck.st = .check ∧ 4 ≤ sCheck.inLen.toNat ∧ sCheck.inLen.toNat ≤ sCheck.cfg.maxInput ∧ (0x11 : Byte) ≠ 0x10) :=
  ⟨by decide, by rfl, by decide⟩
theorem witness_ExtractIsTheBijection :
    (3 ≤ 3 ∧ 3 ≤ 18 ∧ 1 ≤ 4096 ∧ 4096 ≤ 4096) ∧ (3 ≤ 18 ∧ 18 ≤ 18 ∧ 1 ≤ 1 ∧ 1 ≤ 4096) := by decide
theorem witness_FlagsAreMostSignificantFirst :
    0 < 8 ∧ 7 < 8 ∧ ({ sLit with flagIdx := 7 } : State).flagIdx.toNat ≤ 7 := by decide
theorem witness_ShortInputFailsTooSmall :
    let s : State := { sCheck with inLen := 3 }
    s.host = [] ∧ s.st = .check ∧ s.inLen.toNat < 4 := by decide
theorem witness_LongInputFailsTooLarge :
    (let s : State := { sCheck with inLen := 134217729 }
     s.host = [] ∧ s.st = .check ∧ 4 ≤ s.inLen.toNat ∧ s.cfg.maxInput < s.inLen.toNat) ∧
    (let s : State := { sCheck with inLen := 134217728 }
     s.host = [] ∧ s.st = .check ∧ 4 ≤ s.inLen.toNat ∧ s.inLen.toNat = s.cfg.maxInput ∧ s.inByte 0 = 0x10) := by decide
theorem witness_WrongTagFailsInvalidTag :
    let s : State := { sCheck with inMem := sCheck.inMem.write 0 0x11, inLen := 4 }
    s.host = [] ∧ s.st = .check ∧ 4 ≤ s.inLen.toNat ∧ s.inLen.toNat ≤ s.cfg.maxInput ∧ s.inByte 0 ≠ 0x10 := by decide
theorem witness_FirstFailingCheckIsReported :
    sCheck.cfg.ok ∧ sCheck.host = [] ∧ sCheck.st = .check ∧ sCheck.errcode = .none := by decide
theorem witness_HeaderIsParsed :
    (let s : State := { sCheck with inLen := 4 }
     s.host = [] ∧ s.st = .check ∧ 4 ≤ s.inLen.toNat ∧ s.inLen.toNat ≤ s.cfg.maxInput ∧ s.inByte 0 = 0x10) := by decide
theorem witness_FailedCheckReadsZero :
    let s : State := { sCheck with inLen := 3 }
    s.host = [] ∧ s.st = .check ∧ s.size = 0 ∧ s.ip = 0 ∧ s.op = 0 ∧ ∃ t, step s = .next t ∧ t.st = .error :=
  ⟨by decide, by decide, by decide, by decide, by decide, _, rfl, rfl⟩
theorem witness_HdrCompletes :
    sCheck.st = .check ∧ 4 ≤ sCheck.inLen.toNat ∧ sCheck.inLen.toNat ≤ sCheck.cfg.maxInput := by decide
theorem witness_ControlByteFetch :
    (let s : State := { sCtrlEnd with size := 0 }
     s.host = [] ∧ s.st = .ctrl ∧ s.size.toNat ≤ s.op.toNat) ∧
    (sCtrlEnd.host = [] ∧ sCtrlEnd.st = .ctrl ∧ sCtrlEnd.op.toNat < sCtrlEnd.size.toNat ∧
      sCtrlEnd.inLen.toNat ≤ sCtrlEnd.ip.toNat) ∧
    (let s : State := { sCtrl with inLen := 5 }
     s.host = [] ∧ s.st = .ctrl ∧ s.op.toNat < s.size.toNat ∧ s.ip.toNat < s.inLen.toNat ∧
      s.inLen.toNat ≤ s.cfg.maxInput) := by decide
theorem witness_CtrlCompletes :
    sCtrl.st = .ctrl ∧ sCtrl.op.toNat < sCtrl.size.toNat ∧ sCtrl.ip.toNat < sCtrl.inLen.toNat := by decide

/-- The hypotheses of a statement about a TOKEN step, with the flag given. -/
abbrev tokenState (s : State) (flag : Bool) : Prop :=
  s.host = [] ∧ s.st = .token ∧ s.flagIdx.toNat ≤ 7 ∧ s.op.toNat < s.size.toNat ∧
    s.inLen.toNat ≤ s.cfg.maxInput ∧ s.ctrl.getLsbD (7 - s.flagIdx.toNat) = flag

theorem witness_FlagSelectsTheToken :
    (tokenState { sBref with inLen := 10 } true ∧ 8 + 2 ≤ 10) ∧
    (tokenState sBrefEnd true ∧ sBrefEnd.inLen.toNat < sBrefEnd.ip.toNat + 2) ∧
    (tokenState sLit false ∧ sLit.ip.toNat < sLit.inLen.toNat) ∧
    (tokenState sLitEnd false ∧ sLitEnd.inLen.toNat ≤ sLitEnd.ip.toNat) := by decide
theorem witness_TokenEndUpdatesTheSequencer :
    (∃ b t, exec (.lit b) sLit = .next t ∧ t.st ≠ .error) ∧
    (sCopyLast.host = [] ∧ sCopyLast.st = .copy ∧ sCopyLast.rem = 1 ∧ ∃ t, step sCopyLast = .next t) :=
  ⟨⟨0x41, _, rfl, by decide⟩, rfl, rfl, rfl, _, rfl⟩
theorem witness_LiteralStep :
    (tokenState sLitEnd false ∧ sLitEnd.inLen.toNat ≤ sLitEnd.ip.toNat) ∧
    (tokenState { sLit with inLen := 6 } false ∧ 5 < 6) := by decide
theorem witness_LitCompletes :
    sLit.st = .token ∧ sLit.flagIdx.toNat ≤ 7 ∧ sLit.op.toNat < sLit.size.toNat ∧
      sLit.ctrl.getLsbD (7 - sLit.flagIdx.toNat) = false ∧ sLit.ip.toNat < sLit.inLen.toNat := by decide
theorem witness_LitFrame :
    (∃ t, exec (.lit 0x41) sLit = .next t) ∧ (∃ t, exec (.lit 0x41) sLitEnd = .next t ∧ t.st = .error) :=
  ⟨⟨_, rfl⟩, _, rfl, rfl⟩
theorem witness_BackReferenceFetch :
    (tokenState sBrefEnd true ∧ sBrefEnd.inLen.toNat - sBrefEnd.ip.toNat < 2) ∧
    (tokenState sFar true ∧ (0x3003 : BitVec 16).toNat = 256 * (sFar.inByte 8).toNat + (sFar.inByte 9).toNat ∧
      2 ≤ sFar.inLen.toNat - sFar.ip.toNat ∧ sFar.op.toNat < (0x3003 : BitVec 16).toNat % 4096 + 1) ∧
    (tokenState sBref true ∧ (0x3002 : BitVec 16).toNat = 256 * (sBref.inByte 8).toNat + (sBref.inByte 9).toNat ∧
      2 ≤ sBref.inLen.toNat - sBref.ip.toNat ∧ (0x3002 : BitVec 16).toNat % 4096 + 1 ≤ sBref.op.toNat) := by decide
theorem witness_BrefCompletes :
    tokenState sBref true ∧ 2 ≤ sBref.inLen.toNat - sBref.ip.toNat ∧ (3 : BitVec 13).toNat ≤ sBref.op.toNat := by decide
theorem witness_FarDisplacementFails :
    (tokenState sBref true ∧ 2 ≤ sBref.inLen.toNat - sBref.ip.toNat ∧ sBref.op.toNat < (4 : BitVec 13).toNat) ∧
    (∃ t, step sBref = .next t ∧ t.st = .copy) ∧ (∃ t, step sCopy = .next t ∧ t.st = .copy) :=
  ⟨by decide, ⟨_, rfl, rfl⟩, _, rfl, rfl⟩

/-- The hypotheses of a statement about a copy in progress. -/
abbrev copyState (s : State) : Prop :=
  s.host = [] ∧ s.st = .copy ∧ 1 ≤ s.rem.toNat ∧ s.rem.toNat ≤ s.size.toNat - s.op.toNat ∧ 1 ≤ s.disp.toNat ∧
    s.disp.toNat ≤ s.op.toNat ∧ s.flagIdx.toNat ≤ 7

theorem witness_CopyStepAppendsOneByte :
    (copyState sCopy ∧ sCopy.rem ≠ 1) ∧ (copyState sCopyLast ∧ sCopyLast.rem = 1) := by decide
theorem witness_OverlappingCopyRepeatsThePeriod : copyState sCopy ∧ copyState { sCopy with disp := 1 } := by decide
theorem witness_CopyStopsAtTheDeclaredSize :
    (tokenState sBref true ∧ (0x3002 : BitVec 16).toNat = 256 * (sBref.inByte 8).toNat + (sBref.inByte 9).toNat ∧
      sBref.ip.toNat + 2 ≤ sBref.inLen.toNat ∧ (0x3002 : BitVec 16).toNat % 4096 + 1 ≤ sBref.op.toNat) ∧
    (let s : State := { sBref with size := 5 }
     tokenState s true ∧ s.size.toNat - s.op.toNat ≤ (0x3002 : BitVec 16).toNat / 4096 + 3) := by decide
theorem witness_NonStoringElementsFrame :
    (∃ t, exec (.hdr 0x10 10) sCheck = .next t) ∧ (∃ t, exec (.ctrl 0x10) sCtrl = .next t) ∧
    (∃ t, exec (.bref 6 3) sBref = .next t) := ⟨⟨_, rfl⟩, ⟨_, rfl⟩, _, rfl⟩
theorem witness_ElementsTrapOnTruncation :
    (sCtrlEnd.st = .ctrl ∧ sCtrlEnd.op.toNat < sCtrlEnd.size.toNat ∧ sCtrlEnd.inLen.toNat ≤ sCtrlEnd.ip.toNat) ∧
    (tokenState sLitEnd false ∧ sLitEnd.inLen.toNat ≤ sLitEnd.ip.toNat) ∧
    (tokenState sBrefEnd true ∧ sBrefEnd.inLen.toNat < sBrefEnd.ip.toNat + 2) := by decide

/-- A host's next move on a machine that is not BUSY, and on one that is. -/
def idleWith (m : HostMove) : State := { loaded p1 with host := [m] }
def busyWith (m : HostMove) : State := { sCopy with host := [m] }

theorem witness_StartCommandBeginsARun :
    ((idleWith (.writeReg 0 1)).host = .writeReg 0 1 :: [] ∧ (1 : Word).getLsbD 0 = true ∧
      (idleWith (.writeReg 0 1)).busy = false) ∧
    ((busyWith (.writeReg 0 1)).host = .writeReg 0 1 :: [] ∧ (busyWith (.writeReg 0 1)).busy = true) ∧
    ((idleWith (.writeReg 0 0xFFFFFFFE)).host = .writeReg 0 0xFFFFFFFE :: [] ∧
      (0xFFFFFFFE : Word).getLsbD 0 = false) := by decide
theorem witness_StartCompletes :
    State.reset.st = .idle ∧ sDone.st = .done ∧ sError.st = .error := by decide
theorem witness_StartFrame :
    (∃ t, exec (.start 0) sDone = .next t) ∧ (∃ t, exec (.start 0) sCopy = .next t ∧ sCopy.busy = true) :=
  ⟨⟨_, rfl⟩, _, rfl, rfl⟩
theorem witness_OnlyTwoRegisterWritesHaveEffect :
    ((busyWith (.writeReg 3 5)).host = .writeReg 3 5 :: [] ∧ ¬(3 = 0 ∧ (5 : Word).getLsbD 0 = true) ∧
      ¬(3 = 3 ∧ (busyWith (.writeReg 3 5)).busy = false)) ∧
    ((busyWith (.writeReg 0 1)).host = .writeReg 0 1 :: [] ∧ (1 : Word).getLsbD 0 = true) ∧
    ((idleWith (.writeReg 3 5)).host = .writeReg 3 5 :: [] ∧ (idleWith (.writeReg 3 5)).busy = false) := by decide
theorem witness_InLenIsReadWrite :
    (idleWith (.writeReg 3 5)).host = .writeReg 3 5 :: [] ∧ (busyWith (.readReg 3)).host = .readReg 3 :: [] := by decide
theorem witness_StatusShowsTheState :
    7 ≤ 7 ∧ State.reset.st = .idle ∧ (busyWith (.readReg 1)).host = .readReg 1 :: [] ∧
      (idleWith (.writeReg 1 7)).host = .writeReg 1 7 :: [] := by decide
theorem witness_RegisterReadsHaveNoSideEffect :
    ((busyWith (.readReg 4)).host = .readReg 4 :: [] ∧ (busyWith (.readReg 4)).flagIdx.toNat ≤ 8 ∧
      ¬((busyWith (.readReg 4)).busy = true ∧ (4 = 5 ∨ 4 = 6 ∨ 4 = 7))) ∧
    ((busyWith (.readReg 7)).host = .readReg 7 :: [] ∧ (busyWith (.readReg 7)).flagIdx.toNat ≤ 8 ∧
      (busyWith (.readReg 7)).busy = true) := by decide
theorem witness_RegisterMapHolds :
    8 ≤ 8 ∧ (regMask 1).getLsbD 3 = false ∧ (regMask 6).getLsbD 24 = false ∧ (regMask 7).getLsbD 12 = false := by decide
theorem witness_HostAccessesTheMemories :
    ((idleWith (.writeIn 3 7)).host = .writeIn 3 7 :: [] ∧ 3 < (idleWith (.writeIn 3 7)).cfg.inCap ∧
      (idleWith (.writeIn 3 7)).busy = false) ∧
    ((busyWith (.writeIn 3 7)).host = .writeIn 3 7 :: [] ∧ (busyWith (.writeIn 3 7)).busy = true) ∧
    ((busyWith (.readIn 134217727)).host = .readIn 134217727 :: [] ∧
      134217727 < (busyWith (.readIn 134217727)).cfg.inCap) ∧
    ((idleWith (.writeOut 16777214 7)).host = .writeOut 16777214 7 :: [] ∧
      16777214 < (idleWith (.writeOut 16777214 7)).cfg.outCap ∧ (idleWith (.writeOut 16777214 7)).busy = false) ∧
    ((busyWith (.writeOut 0 7)).host = .writeOut 0 7 :: [] ∧ (busyWith (.writeOut 0 7)).busy = true) ∧
    ((idleWith (.readOut 0)).host = .readOut 0 :: [] ∧ (idleWith (.readOut 0)).busy = false) ∧
    ((busyWith (.readOut 0)).host = .readOut 0 :: [] ∧ 0 < (busyWith (.readOut 0)).cfg.outCap ∧
      (busyWith (.readOut 0)).busy = true) := by decide
theorem witness_OffsetsOutsideAMemoryFault :
    ((busyWith (.readIn 134217728)).host = .readIn 134217728 :: [] ∧
      (busyWith (.readIn 134217728)).cfg.inCap ≤ 134217728) ∧
    ((idleWith (.writeIn 134217728 7)).host = .writeIn 134217728 7 :: [] ∧
      (idleWith (.writeIn 134217728 7)).busy = false) ∧
    ((idleWith (.readOut 16777215)).host = .readOut 16777215 :: [] ∧
      (idleWith (.readOut 16777215)).cfg.outCap ≤ 16777215) ∧
    ((idleWith (.writeOut 16777215 7)).host = .writeOut 16777215 7 :: [] ∧
      (idleWith (.writeOut 16777215 7)).busy = false) := by decide
theorem witness_ResetSignalSetsEveryRegister : (busyWith .reset).host = .reset :: [] := by decide
theorem witness_FailureEntryIsPrecise :
    (sFar.host = [] ∧ sFar.st ≠ .error ∧ ∃ t, step sFar = .next t ∧ t.st = .error) ∧
    (sError.host = [] ∧ sError.st = .error) := ⟨⟨rfl, by decide, _, rfl, rfl⟩, rfl, rfl⟩
theorem witness_StepsRaiseTheirOwnFailures :
    (∀ s ∈ [{ sCheck with inLen := 3 }, { sCheck with inLen := 134217729 },
        { sCheck with inMem := sCheck.inMem.write 0 0x11 }, sCtrlEnd, sLitEnd, sBrefEnd, sFar],
      s.host = [] ∧ s.st ≠ .error ∧ (nextOf (step s)).map (·.st) = some .error) := by decide
theorem witness_OnlyStartWakesTheEngine :
    (sDone.st = .done ∧ sDone.host = []) ∧
    ((idleWith (.writeReg 0 1)).busy = false ∧ (idleWith (.writeReg 0 1)).host = .writeReg 0 1 :: [] ∧
      ∃ t, step (idleWith (.writeReg 0 1)) = .next t ∧ t.busy = true) :=
  ⟨⟨rfl, rfl⟩, rfl, rfl, _, rfl, rfl⟩
theorem witness_StepRunsTheDecodedInstruction :
    (sBref.selected = some .b16 ∧ sBref.beforeFetch .b16 = none ∧ sBref.fetchBytes .b16 = some [0x30, 0x02] ∧
      decode .b16 [0x30, 0x02] = .ok (.bref 6 3, []) ∧ sBref.host = []) ∧
    (({ sBref with host := [.await] } : State).selected = some .b16 ∧
      ({ sBref with host := [.await] } : State).host = .await :: []) ∧
    (({ sBref with host := [.pass] } : State).selected = some .b16 ∧
      ({ sBref with host := [.pass] } : State).host = .pass :: []) ∧
    (sBrefEnd.selected = some .b16 ∧ (sBrefEnd.beforeFetch .b16).isSome = true ∧ sBrefEnd.host = []) ∧
    (sCopy.st = .copy ∧ (busyWith .await).st = .copy ∧ (busyWith .await).host = .await :: [] ∧
      (busyWith .pass).host = .pass :: []) ∧
    ((idleWith (.writeReg 0 1)).host = .writeReg 0 1 :: [] ∧
      decode .reg32 (bytesOfWord 1) = .ok (.start 0, [])) :=
  ⟨⟨by decide, by decide, by decide, rfl, rfl⟩, by decide, by decide, by decide, by decide, by decide, rfl⟩

/-! ### States that meet the invariant -/

/-- The invariant, from checks that decide, for a state whose header was accepted. -/
theorem inv_of_checks (s : State) (hs : s.Streaming)
    (h : s.cfg.ok ∧ s.inMem.wf ∧ s.outMem.wf ∧ (∀ c ∈ s.inMem, c.1 < s.cfg.inCap) ∧
      (∀ c ∈ s.outMem, c.1 < s.cfg.outCap) ∧ s.outHost = [] ∧ s.op.toNat ≤ s.size.toNat ∧
      (∀ a < s.op.toNat, s.outMem.read a ≠ none) ∧ s.flagIdx.toNat ≤ 8 ∧ (s.st = .error ↔ s.errcode ≠ .none) ∧
      s.st ≠ .check ∧ (s.st = .ctrl → s.flagIdx = 0 ∧ s.ctrl = 0 ∧ s.ip = 4 ∧ s.op = 0) ∧
      (s.st = .token → s.flagIdx.toNat ≤ 7 ∧ s.op.toNat < s.size.toNat) ∧
      (s.st = .copy → s.copyReady = true ∧ s.rem.toNat ≤ 18 ∧ s.disp.toNat ≤ 4096) ∧
      (s.st = .done → s.op = s.size ∧ 4 ≤ s.ip.toNat ∧ s.ip.toNat ≤ s.cfg.maxInput)) : s.Inv := by
  obtain ⟨h1, h2, h3, h4, h5, h6, h7, h8, h9, h10, h11, h12, h13, h14, h15⟩ := h
  exact
    { cfg_ok := h1, inMem_wf := h2, outMem_wf := h3, inMem_cap := h4, outMem_cap := h5
      outHost_rising := by simp [h6], outHost_listed := by simp [h6], outHost_busy := fun _ => h6
      op_le_size := h7, out_listed := h8, flagIdx_le := h9, errcode_iff := h10
      check := fun h => absurd h h11, ctrl := fun h => ⟨hs, .inr (h12 h)⟩
      token := fun h => ⟨hs, h13 h⟩, copy := fun h => ⟨hs, h14 h⟩, done := h15 }

theorem sCtrl_inv : sCtrl.Inv :=
  inv_of_checks _ ⟨by decide, by decide, by decide, by decide, by decide⟩ (by decide)
theorem sLit_inv : sLit.Inv :=
  inv_of_checks _ ⟨by decide, by decide, by decide, by decide, by decide⟩ (by decide)
theorem sBref_inv : sBref.Inv :=
  inv_of_checks _ ⟨by decide, by decide, by decide, by decide, by decide⟩ (by decide)
theorem sCopy_inv : sCopy.Inv :=
  inv_of_checks _ ⟨by decide, by decide, by decide, by decide, by decide⟩ (by decide)
theorem sCopyLast_inv : sCopyLast.Inv :=
  inv_of_checks _ ⟨by decide, by decide, by decide, by decide, by decide⟩ (by decide)
theorem sDone_inv : sDone.Inv :=
  inv_of_checks _ ⟨by decide, by decide, by decide, by decide, by decide⟩ (by decide)
theorem sError_inv : sError.Inv :=
  inv_of_checks _ ⟨by decide, by decide, by decide, by decide, by decide⟩ (by decide)
theorem sFar_inv : sFar.Inv :=
  inv_of_checks _ ⟨by decide, by decide, by decide, by decide, by decide⟩ (by decide)
theorem sCtrlEnd_inv : sCtrlEnd.Inv :=
  inv_of_checks _ ⟨by decide, by decide, by decide, by decide, by decide⟩ (by decide)
theorem sLitEnd_inv : sLitEnd.Inv :=
  inv_of_checks _ ⟨by decide, by decide, by decide, by decide, by decide⟩ (by decide)
theorem sBrefEnd_inv : sBrefEnd.Inv :=
  inv_of_checks _ ⟨by decide, by decide, by decide, by decide, by decide⟩ (by decide)

theorem witness_RunEndsExactlyAtSize :
    (sDone.Inv ∧ sDone.host = [] ∧ ∃ t, step sDone = .next t ∧ t.st = .done) ∧
    (let s : State := { sCopyLast with size := 9 }
     s.Inv ∧ s.host = [] ∧ s.st = .copy ∧ ∃ t, step s = .next t ∧ t.op = t.size) :=
  ⟨⟨sDone_inv, rfl, _, rfl, rfl⟩,
    inv_of_checks _ ⟨by decide, by decide, by decide, by decide, by decide⟩ (by decide), rfl, rfl, _, rfl, rfl⟩
theorem witness_WindowReadStaysInTheWindow : sCopy.Inv ∧ sCopy.st = .copy := ⟨sCopy_inv, rfl⟩
theorem witness_ResultIsPresented :
    (sDone.Inv ∧ sDone.st = .done) ∧ (sError.Inv ∧ sError.st = .error) ∧ sCopy.busy = true ∧ State.reset.st = .idle :=
  ⟨⟨sDone_inv, rfl⟩, ⟨sError_inv, rfl⟩, rfl, rfl⟩
/-- P1 with a length of 3. -/
def sShort : State := { sCheck with inLen := 3 }
theorem sShort_inv : sShort.Inv where
  cfg_ok := by decide
  inMem_wf := by decide
  outMem_wf := by decide
  inMem_cap := by decide
  outMem_cap := by decide
  outHost_rising := by decide
  outHost_listed := by decide
  outHost_busy := by decide
  op_le_size := by decide
  out_listed := by decide
  flagIdx_le := by decide
  errcode_iff := by decide
  check := by decide
  ctrl := fun h => absurd h (by decide)
  token := fun h => absurd h (by decide)
  copy := fun h => absurd h (by decide)
  done := fun h => absurd h (by decide)
theorem witness_FailureShowsItsPosition :
    (sShort.Inv ∧ sShort.host = [] ∧ sShort.st = .check ∧ ∃ t, step sShort = .next t ∧ t.st = .error) ∧
    (sCtrlEnd.Inv ∧ sCtrlEnd.host = [] ∧ sCtrlEnd.st = .ctrl ∧ ∃ t, step sCtrlEnd = .next t ∧ t.st = .error) ∧
    (sLitEnd.Inv ∧ sLitEnd.host = [] ∧ sLitEnd.tokenFlag = false ∧
      ∃ t, step sLitEnd = .next t ∧ t.st = .error ∧ t.errcode = .truncatedInput) ∧
    (sBrefEnd.Inv ∧ sBrefEnd.host = [] ∧ sBrefEnd.tokenFlag = true ∧
      ∃ t, step sBrefEnd = .next t ∧ t.st = .error ∧ t.errcode = .truncatedInput) ∧
    (sFar.Inv ∧ sFar.host = [] ∧ ∃ t, step sFar = .next t ∧ t.st = .error ∧ t.errcode = .invalidBackReference) :=
  ⟨⟨sShort_inv, rfl, rfl, _, rfl, rfl⟩, ⟨sCtrlEnd_inv, rfl, rfl, _, rfl, rfl⟩, ⟨sLitEnd_inv, rfl, rfl, _, rfl, rfl, rfl⟩,
    ⟨sBrefEnd_inv, rfl, rfl, _, rfl, rfl, rfl⟩, sFar_inv, rfl, _, rfl, rfl, rfl⟩
theorem witness_EveryStepKeepsTheInvariant :
    (let s : State := { sCopyLast with size := 9 }
     s.Inv ∧ s.st ≠ .done ∧ ∃ t, step s = .next t ∧ t.st = .done) ∧
    (let s : State := { sDone with host := [.writeReg 4 0] }
     s.Inv ∧ s.st = .done ∧ s.Streaming ∧ s.rewritesInput = false ∧ ∃ t, step s = .next t ∧ t.st = .done) :=
  ⟨⟨inv_of_checks _ ⟨by decide, by decide, by decide, by decide, by decide⟩ (by decide), by decide, _, rfl, rfl⟩,
    inv_of_checks _ ⟨by decide, by decide, by decide, by decide, by decide⟩ (by decide), rfl,
    ⟨by decide, by decide, by decide, by decide, by decide⟩, rfl, _, rfl, rfl⟩
/-- Log entry 6: the host rewrites IN_LEN in DONE, and 10_state.md R44 (b) as written no longer holds there. -/
theorem test_host_may_rewrite_the_input_in_done :
    let s : State := { sDone with host := [.writeReg 3 0] }
    s.rewritesInput = true ∧
      (nextOf (step s)).map (fun t => (t.st, t.inLen, t.ip)) = some (.done, 0, 11) := by decide
theorem witness_NoReachableStepStops : sBref.Inv ∧ sBref.hostAllowed = true := ⟨sBref_inv, rfl⟩
theorem witness_EngineNeverWritesTheInput : sLit.host = [] ∧ ∃ t, step sLit = .next t := ⟨rfl, _, rfl⟩
theorem witness_CursorMovesForwardOnly :
    sCtrl.Inv ∧ sCtrl.host = [] ∧ sCtrl.busy = true ∧ ∃ t, step sCtrl = .next t ∧ t.st ≠ .error :=
  ⟨sCtrl_inv, rfl, rfl, _, rfl, by decide⟩
theorem witness_OutputIsAppendOnly : sLit.Inv ∧ sLit.host = [] ∧ ∃ t, step sLit = .next t :=
  ⟨sLit_inv, rfl, _, rfl⟩
theorem witness_TrailingInputHasNoEffect :
    sLit.host = [] ∧ (∀ a < sLit.inLen.toNat, (sLit.inMem.write 11 0xAA).read a = sLit.inMem.read a) ∧
    (∃ t, step sLit = .next t) ∧ (sLit.inMem.write 11 0xAA).read 11 ≠ sLit.inMem.read 11 ∧
    (let s : State := { sLit with cfg := { sLit.cfg with maxInput := 5 } }
     s.host = [] ∧ ∃ e, step s = .fault e) ∧
    (let s : State := { sLit with flagIdx := 8 }
     s.host = [] ∧ ∃ r, step s = .refused r) :=
  ⟨rfl, by decide, ⟨_, rfl⟩, by decide, ⟨rfl, _, rfl⟩, rfl, _, rfl⟩
theorem witness_StaleOutputHasNoEffect :
    sCopy.Inv ∧ sCopy.host = [] ∧ (∀ a < sCopy.op.toNat, (sCopy.outMem.write 3 0xAA).read a = sCopy.outMem.read a) ∧
    ∃ t, step sCopy = .next t := ⟨sCopy_inv, rfl, by decide, _, rfl⟩
theorem witness_ParametersNeverChange : ∃ t, step (busyWith .reset) = .next t := ⟨_, rfl⟩
theorem witness_Started : sCheck.Started := ⟨rfl, rfl, rfl, rfl, rfl, rfl, rfl, rfl, rfl, rfl⟩
theorem witness_EveryRunEndsWithinTheBound :
    sCheck.Started ∧ 4 ≤ sCheck.inLen.toNat ∧ sCheck.inLen.toNat ≤ sCheck.cfg.maxInput ∧ sCheck.inByte 0 = 0x10 :=
  ⟨witness_Started, by decide⟩
/-- P1's result, by the reference function. -/
theorem witness_RunComputesTheReferenceFunction :
    sCheck.Started ∧
    lz10Decode 134217728 p1 =
      .ok (11, [0x41, 0x42, 0x43, 0x41, 0x42, 0x43, 0x41, 0x42, 0x43, 0x58]) := ⟨witness_Started, by rfl⟩
theorem witness_HostDecodeGivesTheReferenceResult :
    let s : State := { State.reset with host := decodeMoves p1 }
    s.busy = false ∧ s.cfg.ok ∧ p1.length ≤ s.cfg.maxInput ∧ s.host = decodeMoves p1 :=
  ⟨rfl, by decide, by decide, rfl⟩

end Sys2Proof.Tests
end

section
/-! SUPPORT. The host's register accesses and the bits of STATUS (10_state.md R33 to R36), and the statements of
10_state.md they settle. -/
namespace Sys2Proof.Machine

/-! ### A host register access, as the next step -/

/-- A pending register read is the next step, also while BUSY. -/
theorem step_readReg {s : State} {n : Nat} {ms : List HostMove} (h : s.host = .readReg n :: ms) :
    step s = hostReadReg n { s with host := ms } :=
  step_host h (.inl nofun)

/-- A pending register write is the next step, also while BUSY. -/
theorem step_writeReg {s : State} {n : Nat} {w : Word} {ms : List HostMove} (h : s.host = .writeReg n w :: ms) :
    step s = hostWrite n w { s with host := ms } :=
  step_host h (.inl nofun)

/-- A register that is not unspecified replies its value, where CTRL_STATE has a FLAGIDX that is ever produced. -/
theorem hostReadReg_specified {n : Nat} {s : State} (hu : s.unspecifiedReg n = false)
    (hf : n = 7 → s.flagIdx.toNat ≤ 8) : hostReadReg n s = .next (s.reply (s.regValue n)) := by
  have hp : ¬(n = 7 ∧ 8 < s.flagIdx.toNat) := fun ⟨h7, hlt⟩ => Nat.not_lt.2 (hf h7) hlt
  rw [hostReadReg, if_neg (by simp [hu]), if_neg hp]

/-- Registers 0 to 4 are specified in every state. -/
theorem State.unspecifiedReg_of_lt (s : State) {n : Nat} (h : n < 5) : s.unspecifiedReg n = false := by
  have : n ≠ 5 ∧ n ≠ 6 ∧ n ≠ 7 := by omega
  simp [State.unspecifiedReg, this]

/-- Registers 0 to 4 reply their value in every state. -/
theorem hostReadReg_of_lt {n : Nat} (s : State) (h : n < 5) : hostReadReg n s = .next (s.reply (s.regValue n)) :=
  hostReadReg_specified (s.unspecifiedReg_of_lt h) (by omega)

/-- A write to IN_LEN is taken while not BUSY and ignored while BUSY. -/
theorem hostWrite_inLen (w : Word) (s : State) :
    hostWrite 3 w s = .next { s with inLen := if s.busy then s.inLen else w } := by
  cases hb : s.busy <;> simp [hostWrite, hostWriteReg, hb]

/-- A write to any register but CMD and IN_LEN is ignored. -/
theorem hostWrite_ignored {n : Nat} (w : Word) (s : State) (h0 : n ≠ 0) (h3 : n ≠ 3) :
    hostWrite n w s = .next s := by
  simp [hostWrite, hostWriteReg, h0, h3]

/-! ### The bits of STATUS -/

/-- The one bit of `bit b`. -/
@[simp] theorem bit_getElem_zero (b : Bool) : (bit b)[0] = b := by
  cases b <;> rfl

/-- STATUS[31:7] are not defined and read 0. -/
theorem State.statusWord_high (s : State) {k : Nat} (hk : 7 ≤ k) : s.statusWord.getLsbD k = false := by
  rw [State.statusWord, BitVec.getLsbD_setWidth, BitVec.getLsbD_of_ge _ _ hk, Bool.and_false]

/-- Every bit of STATUS (10_state.md R36): STATE below 3, BUSY, DONE and ERR at 4, 5 and 6, and 0 elsewhere. -/
theorem State.statusWord_getLsbD (s : State) (k : Nat) :
    s.statusWord.getLsbD k =
      if k < 3 then s.st.code.getLsbD k
      else if k = 4 then s.busy else if k = 5 then s.st == .done else if k = 6 then s.st == .error else false := by
  rcases Nat.lt_or_ge k 7 with hk | hk
  · simp only [State.statusWord, BitVec.getLsbD_setWidth, BitVec.getLsbD_append]
    interval_cases k <;> simp
  · rw [s.statusWord_high hk, if_neg (by omega), if_neg (by omega), if_neg (by omega), if_neg (by omega)]

/-- STATUS[2:0] is the code of the state. -/
theorem State.statusWord_code (s : State) : s.statusWord.extractLsb' 0 3 = s.st.code := by
  ext k hk
  rw [BitVec.getElem_extractLsb', Nat.zero_add, s.statusWord_getLsbD, if_pos hk, BitVec.getLsbD_eq_getElem hk]

/-- STATUS of the idle engine, as at reset. -/
theorem State.statusWord_idle {s : State} (h : s.st = .idle) : s.statusWord = 0 := by
  simp [State.statusWord, State.busy, h, St.code, bit]

end Sys2Proof.Machine

namespace Sys2Proof.Proofs

open Sys2Proof.Machine

/-- Settles O35: an access of IN_LEN, in any state, is the write or the read of `inLen`. -/
theorem inLenIsReadWrite : Obligations.InLenIsReadWrite := by
  unfold Obligations.InLenIsReadWrite
  refine ⟨fun s w ms h => ?write, fun s ms h => ?read, rfl⟩
  case write => rw [step_writeReg h, hostWrite_inLen]; rfl
  case read => rw [step_readReg h, hostReadReg_of_lt _ (by decide)]; rfl

/-- Settles O36, from what each bit of STATUS is and from the read and the ignored write of a register. -/
theorem statusShowsTheState : Obligations.StatusShowsTheState := by
  unfold Obligations.StatusShowsTheState
  refine ⟨fun s => ⟨s.statusWord_code, s.statusWord_getLsbD 3, ?busy, ?done, ?err, fun _ => s.statusWord_high,
    State.statusWord_idle⟩, rfl, fun s ms h => ?read, fun s w ms h => ?write, State.statusWord_idle rfl⟩
  case busy => exact s.statusWord_getLsbD 4 ▸ s.busy_iff
  case done => exact s.statusWord_getLsbD 5 ▸ beq_iff_eq
  case err => exact s.statusWord_getLsbD 6 ▸ beq_iff_eq
  case read => rw [step_readReg h, hostReadReg_of_lt _ (by decide)]; rfl
  case write => rw [step_writeReg h, hostWrite_ignored _ _ (by decide) (by decide)]

end Sys2Proof.Proofs
end

section
/-! SUPPORT. The elements the decoder reads and which of them are illegal (30_encoding.md R88, R89), and the statement of
30_encoding.md they settle. -/
namespace Sys2Proof

open Sys2Proof.Machine

/-! ### What the decoder reads -/

/-- Everything the decoder can read: one row per format, with the bytes it takes from the front. -/
theorem decode_ok_cases {f : Format} {bs rest : List Byte} {i : Instr} (h : decode f bs = .ok (i, rest)) :
    (∃ tag a b c, f = .h32 ∧ bs = tag :: a :: b :: c :: rest ∧ i = .hdr tag (littleEndian24 a b c)) ∨
    (∃ b, f = .c8 ∧ bs = b :: rest ∧ i = .ctrl b) ∨
    (∃ b, f = .l8 ∧ bs = b :: rest ∧ i = .lit b) ∨
    (∃ hi lo, f = .b16 ∧ bs = hi :: lo :: rest ∧
      i = .bref (extract (bigEndian16 hi lo)).1 (extract (bigEndian16 hi lo)).2) ∨
    (∃ b3 b2 b1 b0, f = .reg32 ∧ bs = b3 :: b2 :: b1 :: b0 :: rest ∧
      (wordOfBytes b3 b2 b1 b0).getLsbD 0 = true ∧ i = .start ((wordOfBytes b3 b2 b1 b0).extractLsb' 1 31)) := by
  unfold decode at h
  split at h
  case h_1 tag a b c rest => cases h; exact .inl ⟨tag, a, b, c, rfl, rfl, rfl⟩
  case h_2 b rest => cases h; exact .inr (.inl ⟨b, rfl, rfl, rfl⟩)
  case h_3 b rest => cases h; exact .inr (.inr (.inl ⟨b, rfl, rfl, rfl⟩))
  case h_4 hi lo rest => cases h; exact .inr (.inr (.inr (.inl ⟨hi, lo, rfl, rfl, rfl⟩)))
  case h_5 b3 b2 b1 b0 rest =>
    split at h
    · next hb => cases h; exact .inr (.inr (.inr (.inr ⟨b3, b2, b1, b0, rfl, rfl, hb, rfl⟩)))
    · cases h
  case h_6 => cases h

/-- A stream format reads an element from any bytes of its length or more. START's format does not: a CMD value with
bit 0 clear is no element. -/
theorem exists_decode_eq_ok : ∀ {f : Format} {bs : List Byte}, f ≠ .reg32 → f.bytes ≤ bs.length →
    ∃ i rest, decode f bs = .ok (i, rest)
  | .h32, _ :: _ :: _ :: _ :: _, _, _ => ⟨_, _, rfl⟩
  | .c8, _ :: _, _, _ => ⟨_, _, rfl⟩
  | .l8, _ :: _, _, _ => ⟨_, _, rfl⟩
  | .b16, _ :: _ :: _, _, _ => ⟨_, _, rfl⟩
  | .reg32, _, hf, _ => absurd rfl hf

/-! ### Which of them are legal -/

/-- A header is ill-formed exactly when its tag is not the required one. -/
theorem Instr.wf_hdr_eq_false_iff (tag : Byte) (size : BitVec 24) :
    (Instr.hdr tag size).wf = false ↔ tag ≠ formatTag :=
  beq_eq_false_iff_ne

/-- Every 16-bit value is a legal back-reference (30_encoding.md R88). -/
theorem Instr.wf_bref_extract (v : BitVec 16) : (Instr.bref (extract v).1 (extract v).2).wf = true := by
  have := v.isLt
  simp only [Instr.wf, extract_count_toNat, extract_disp_toNat, Bool.and_eq_true, decide_eq_true_eq]
  omega

/-- What the decoder reads is ill-formed exactly when it is a header with another tag. -/
theorem wf_eq_false_iff_of_decode {f : Format} {bs rest : List Byte} {i : Instr} (h : decode f bs = .ok (i, rest)) :
    i.wf = false ↔ ∃ tag size, i = .hdr tag size ∧ tag ≠ formatTag := by
  obtain ⟨tag, a, b, c, -, -, rfl⟩ | ⟨b, -, -, rfl⟩ | ⟨b, -, -, rfl⟩ | ⟨hi, lo, -, -, rfl⟩ |
    ⟨b3, b2, b1, b0, -, -, -, rfl⟩ := decode_ok_cases h
  · simp [Instr.wf_hdr_eq_false_iff]
  · simp [Instr.wf]
  · simp [Instr.wf]
  · simp [Instr.wf_bref_extract]
  · simp [Instr.wf]

end Sys2Proof

namespace Sys2Proof.Machine

/-- The meaning of a header with another tag, where its length is accepted (40_header.md R103). -/
theorem exec_hdr_of_tag_ne {tag : Byte} {s : State} (size : BitVec 24) (st : s.st = .check)
    (ge : 4 ≤ s.inLen.toNat) (le : s.inLen.toNat ≤ s.cfg.maxInput) (ht : tag ≠ formatTag) :
    exec (.hdr tag size) s = .next (s.raise .invalidTag) := by
  have hs := (State.selected_h32 s).2 st
  have hb := (State.beforeFetch_h32_none s).2 ⟨ge, le⟩
  simp [exec, execHdr, whenSelected_pos hs, hb, ht]

end Sys2Proof.Machine

namespace Sys2Proof.Proofs

open Sys2Proof.Machine

/-- Settles O3, from the elements the decoder can read, of which the header alone has an illegal operand. -/
theorem onlyWrongTagIsIllegal : Obligations.OnlyWrongTagIsIllegal := by
  unfold Obligations.OnlyWrongTagIsIllegal
  refine ⟨fun f bs => ?decodes, fun f bs rest i => ?illegal, fun tag size s => ?fails⟩
  case decodes => exact exists_decode_eq_ok
  case illegal => exact wf_eq_false_iff_of_decode
  case fails => exact exec_hdr_of_tag_ne size

end Sys2Proof.Proofs
end

section
/-! SUPPORT. The CHECK step as the machine's next step (40_header.md R101 to R107), and the statements of 40_header.md
it settles. -/
namespace Sys2Proof.Machine

/-- With no host move pending, a failing step is the failure entry. -/
theorem step_fail {s : State} {e : ErrCode} (hh : s.host = []) (h : Fails s e) : step s = .next (s.raise e) := by
  rw [step_engine hh, engineStep_fail h]

/-- With no host move pending, an accepted header is parsed by the next step (40_header.md R104). -/
theorem step_header {s : State} (hh : s.host = []) (st : s.st = .check) (ge : 4 ≤ s.inLen.toNat)
    (le : s.inLen.toNat ≤ s.cfg.maxInput) (tag : s.inByte 0 = formatTag) :
    step s = .next { s with
      size := littleEndian24 (s.inByte 1) (s.inByte 2) (s.inByte 3), ip := 4, op := 0, st := .ctrl } := by
  rw [step_engine hh, engineStep_next_iff]
  exact .header st ge le tag

/-- A completed token never leaves the sequencer in ERROR. -/
theorem State.tokenEndSt_ne_error (s : State) : s.tokenEndSt ≠ .error := by
  obtain ⟨h, -⟩ | ⟨h, -⟩ | ⟨h, -⟩ := s.tokenEndSt_cases <;> simp [h]

/-- An engine step enters ERROR only through the failure entry (60_exceptions.md R204). -/
theorem EngineMove.eq_raise {s t : State} (h : EngineMove s t) (hs : s.st ≠ .error) (ht : t.st = .error) :
    ∃ e, Fails s e ∧ t = s.raise e := by
  cases h with
  | fail e h => exact ⟨e, h, rfl⟩
  | rest h => exact absurd ht hs
  | literal sel len cap => exact absurd ht s.tokenEndSt_ne_error
  | copyLast st ready last => exact absurd ht s.tokenEndSt_ne_error
  | finish | header | control | backRef | copyMore => cases ht

end Sys2Proof.Machine

namespace Sys2Proof.Proofs

open Sys2Proof.Machine

/-- Settles O7: a short input is the first failure of the CHECK step. -/
theorem shortInputFailsTooSmall : Obligations.ShortInputFailsTooSmall := by
  unfold Obligations.ShortInputFailsTooSmall
  intro s hh st short
  exact step_fail hh (.tooSmall st short)

/-- Settles O8: the ceiling itself is accepted, and what lies above it fails before the tag is read. -/
theorem longInputFailsTooLarge : Obligations.LongInputFailsTooLarge := by
  unfold Obligations.LongInputFailsTooLarge
  refine ⟨fun s hh st ge long => ?above, fun s hh st ge eq tag => ?ceiling⟩
  case above => exact step_fail hh (.tooLarge st ge long)
  case ceiling => exact ⟨_, step_header hh st ge eq.le tag, rfl, rfl⟩

/-- Settles O9: with the length accepted, another first byte is the failure of the tag check. -/
theorem wrongTagFailsInvalidTag : Obligations.WrongTagFailsInvalidTag := by
  unfold Obligations.WrongTagFailsInvalidTag
  intro s hh st ge le tag
  exact step_fail hh (.invalidTag st ge le tag)

/-- Settles O10, by the checks in the rule's order: each case has the checks before it passed. -/
theorem firstFailingCheckIsReported : Obligations.FirstFailingCheckIsReported := by
  unfold Obligations.FirstFailingCheckIsReported
  rintro s ⟨max_ge, -⟩ hh st noError
  refine ⟨by omega, ?_⟩
  by_cases short : s.inLen.toNat < 4
  · exact ⟨_, step_fail hh (.tooSmall st short), by simp [short], by simp⟩
  have ge := Nat.le_of_not_lt short
  by_cases long : s.cfg.maxInput < s.inLen.toNat
  · exact ⟨_, step_fail hh (.tooLarge st ge long), by simp [short, long], by simp⟩
  have le := Nat.le_of_not_lt long
  by_cases tag : s.inByte 0 = 0x10#8
  · exact ⟨_, step_header hh st ge le tag, by simp [short, long, tag, noError], by simp [noError]⟩
  · exact ⟨_, step_fail hh (.invalidTag st ge le tag), by simp [short, long, tag], by simp⟩

/-- Settles O11: the size parsed is the little-endian value of the three bytes after the tag. -/
theorem headerIsParsed : Obligations.HeaderIsParsed := by
  unfold Obligations.HeaderIsParsed
  intro s hh st ge le tag
  exact ⟨_, littleEndian24_toNat _ _ _, step_header hh st ge le tag⟩

/-- Settles O12: the failure entry keeps the zeros that START gave. -/
theorem failedCheckReadsZero : Obligations.FailedCheckReadsZero := by
  unfold Obligations.FailedCheckReadsZero
  intro s t hh st size ip op h ht
  rw [step_engine hh, engineStep_next_iff] at h
  obtain ⟨e, -, rfl⟩ := h.eq_raise (by simp [st]) ht
  simp [State.regValue, size, ip, op]

end Sys2Proof.Proofs
end

section
/-! SUPPORT. The flags of a control byte, the steps of CTRL and TOKEN as the machine's next step, and the end of a token
(41_control.md R120 to R124), and the statements of 41_control.md they settle. -/
namespace Sys2Proof.Machine

/-! ### The flags -/

/-- Flag `k` of a control byte is its bit `7 − k` (41_control.md R123). -/
theorem flagsOf_getElem? (c : Byte) {k : Nat} (hk : k < 8) : (flagsOf c)[k]? = some (c.getLsbD (7 - k)) := by
  interval_cases k <;> rfl

/-! ### The next step, with no host move pending -/

/-- With no host move pending, the next states of a step are the moves of the engine. -/
theorem step_next_iff {s t : State} (hh : s.host = []) : step s = .next t ↔ EngineMove s t := by
  rw [step_engine hh, engineStep_next_iff]

/-- With no host move pending and nothing to do before the fetch, the next step runs the element selected. -/
theorem step_run {s : State} {f : Format} (hh : s.host = []) (sel : s.selected = some f)
    (hb : s.beforeFetch f = none) : step s = runElement f s := by
  rw [step_engine hh, engineStep_busy (State.engine_selects sel), elementStep_run sel hb]

/-- With a byte left, a selected literal is the byte at the cursor. -/
theorem step_literal {s : State} (hh : s.host = []) (sel : s.selected = some .l8)
    (len : s.ip.toNat < s.inLen.toNat) (le : s.inLen.toNat ≤ s.cfg.maxInput) :
    step s = exec (.lit (s.inByte s.ip.toNat)) s := by
  rw [step_run hh sel ((State.beforeFetch_l8_none s).2 len), runElement_l8 s (Nat.lt_of_lt_of_le len le)]

/-- With two bytes left, a selected back-reference is the token at the cursor. -/
theorem step_backRef {s : State} (hh : s.host = []) (sel : s.selected = some .b16)
    (len : s.ip.toNat + 2 ≤ s.inLen.toNat) (le : s.inLen.toNat ≤ s.cfg.maxInput) :
    step s = exec (.bref (extract s.tokenAt).1 (extract s.tokenAt).2) s := by
  rw [step_run hh sel ((State.beforeFetch_b16_none s).2 len), runElement_b16 s (Nat.le_trans len le)]

/-- The fetch of a back-reference leaves the flag index, whether it sets up the copy or fails (41_control.md R122). -/
theorem EngineMove.flagIdx_of_b16 {s t : State} (h : EngineMove s t) (sel : s.selected = some .b16) :
    t.flagIdx = s.flagIdx := by
  cases h with
  | control st => simp [State.selected, st] at sel
  | literal sel' => simp [sel'] at sel
  | copyLast st => simp [State.selected, st] at sel
  | rest | fail | finish | header | backRef | copyMore => rfl

/-! ### The end of a token -/

/-- The after-token update, in terms of the registers it leaves (41_control.md R124). -/
theorem State.afterToken_sequencer (s : State) (hf : s.flagIdx.toNat ≤ 7) :
    s.afterToken.flagIdx.toNat = s.flagIdx.toNat + 1 ∧
      s.afterToken.st =
        if s.afterToken.size.toNat ≤ s.afterToken.op.toNat then .done
        else if s.afterToken.flagIdx.toNat = 8 then .ctrl else .token := by
  have hidx : s.afterToken.flagIdx.toNat = s.flagIdx.toNat + 1 := s.flagIdx_add_one hf
  exact ⟨hidx, by rw [hidx]; rfl⟩

/-- A LIT that does not fail was selected, and completes the token with its byte appended (43_literal.md R170). -/
theorem execLit_completes {b : Byte} {s t : State} (h : execLit b s = .next t) (ht : t.st ≠ .error) :
    s.selected = some .l8 ∧ t = (({ s with ip := s.ip + 1 } : State).emit b).afterToken := by
  obtain ⟨sel, hb | ⟨-, rfl⟩⟩ := execLit_next h
  · have ⟨_, fails⟩ : s.inLen.toNat ≤ s.ip.toNat ∧ t = s.raise .truncatedInput := by
      simpa using State.beforeFetch_some hb
    exact absurd (congrArg State.st fails) ht
  · exact ⟨sel, rfl⟩

/-- The COPY step with one byte to go completes the token with the window's byte appended (42_backref.md R145). -/
theorem copyStep_completes {s t : State} (h : copyStep s = .next t) (last : s.rem = 1) :
    s.copyReady = true ∧ t = ({ s.emit s.windowRead with rem := s.rem - 1 } : State).afterToken := by
  have hrem : s.rem.toNat - 1 = 0 := by rw [last]; rfl
  rw [copyStep, if_pos hrem] at h
  split at h <;> cases h
  exact ⟨‹_›, rfl⟩

end Sys2Proof.Machine

namespace Sys2Proof.Proofs

open Sys2Proof.Machine

/-- Settles O6, from the bit that each flag is, taken at the flag index for the next token's flag. -/
theorem flagsAreMostSignificantFirst : Obligations.FlagsAreMostSignificantFirst := by
  unfold Obligations.FlagsAreMostSignificantFirst
  refine ⟨fun c k hk => flagsOf_getElem? c hk, fun c => rfl, fun s hf => ?tokenFlag, by decide, by decide⟩
  case tokenFlag => exact flagsOf_getElem? s.ctrl (Nat.lt_succ_of_le hf)

/-- Settles O14: the three branches of the rule are three moves of the engine. -/
theorem controlByteFetch : Obligations.ControlByteFetch := by
  unfold Obligations.ControlByteFetch
  refine ⟨fun s hh st full => ?ends, fun s hh st room short => ?fails, fun s hh st room len le => ?fetches,
    by decide, by decide⟩
  case ends => exact (step_next_iff hh).2 (.finish st full)
  case fails => exact step_fail hh (.noControl st room short)
  case fetches => exact (step_next_iff hh).2 (.control st room len (Nat.lt_of_lt_of_le len le))

/-- Settles O16: the flag selects the format, and the format says which element the step runs, or which failure it
takes. -/
theorem flagSelectsTheToken : Obligations.FlagSelectsTheToken := by
  unfold Obligations.FlagSelectsTheToken
  intro s hh st hf room le
  have b16 (flag : s.tokenFlag = true) : s.selected = some .b16 := (State.selected_b16 s).2 ⟨st, hf, room, flag⟩
  have l8 (flag : s.tokenFlag = false) : s.selected = some .l8 := (State.selected_l8 s).2 ⟨st, hf, room, flag⟩
  refine ⟨fun flag len => ?bref, fun flag short => ?brefShort, fun flag t h => ?keepsFlag, fun flag len => ?lit,
    fun flag short => ?litShort⟩
  case bref => exact step_backRef hh (b16 flag) len le
  case brefShort => exact step_fail hh (.noToken (b16 flag) short)
  case keepsFlag => exact ((step_next_iff hh).1 h).flagIdx_of_b16 (b16 flag)
  case lit => exact step_literal hh (l8 flag) len le
  case litShort => exact step_fail hh (.noLiteral (l8 flag) short)

/-- Settles O17: both steps end in the after-token update, on a state with one byte appended and the flag index as it
was. -/
theorem tokenEndUpdatesTheSequencer : Obligations.TokenEndUpdatesTheSequencer := by
  unfold Obligations.TokenEndUpdatesTheSequencer
  rintro s t (⟨b, h, ht⟩ | ⟨hh, st, last, h⟩)
  case inl =>
    obtain ⟨sel, rfl⟩ := execLit_completes h ht
    obtain ⟨-, hf, room, -⟩ := (State.selected_l8 s).1 sel
    obtain ⟨idx, nextSt⟩ := (({ s with ip := s.ip + 1 } : State).emit b).afterToken_sequencer hf
    exact ⟨idx, s.op_add_one room, nextSt⟩
  case inr =>
    rw [step_engine hh, engineStep_copy st] at h
    obtain ⟨ready, rfl⟩ := copyStep_completes h last
    obtain ⟨rem_pos, rem_le, -, -, hf⟩ := s.copyReady_iff.1 ready
    obtain ⟨idx, nextSt⟩ := ({ s.emit s.windowRead with rem := s.rem - 1 } : State).afterToken_sequencer hf
    exact ⟨idx, s.op_add_one (by omega), nextSt⟩

end Sys2Proof.Proofs
end

section
/-! SUPPORT. The bit-field extractor as a bijection, the back-reference fetch and the copy as the machine's next steps
(42_backref.md R140 to R145), and the statements of 42_backref.md they settle. -/
namespace Sys2Proof.Machine

/-! ### The extractor -/

/-- Operands in range come from one token value alone, the one with the two fields side by side (42_backref.md R140). -/
theorem extract_toNat_iff (v : BitVec 16) {count disp : Nat} (hc : 3 ≤ count ∧ count ≤ 18)
    (hd : 1 ≤ disp ∧ disp ≤ 4096) :
    (extract v).1.toNat = count ∧ (extract v).2.toNat = disp ↔
      v = BitVec.ofNat 16 (4096 * (count - 3) + (disp - 1)) := by
  have := v.isLt
  rw [extract_count_toNat, extract_disp_toNat, ← BitVec.toNat_inj, BitVec.toNat_ofNat]
  omega

/-- The token at the cursor is the big-endian value of its two bytes (20_memory.md R64). -/
theorem State.tokenAt_eq {s : State} {v : BitVec 16}
    (hv : v.toNat = 256 * (s.inByte s.ip.toNat).toNat + (s.inByte (s.ip.toNat + 1)).toNat) : s.tokenAt = v :=
  BitVec.eq_of_toNat_eq ((bigEndian16_toNat _ _).trans hv.symm)

/-! ### The next step of a back-reference, with no host move pending -/

/-- The copy that the token at the cursor asks for, set up (42_backref.md R141, R142). -/
def State.copySetUp (s : State) : State :=
  { s with
    ip := s.ip + 2, disp := (extract s.tokenAt).2, rem := s.copyLength (extract s.tokenAt).1, st := .copy }

@[simp] theorem State.copySetUp_op (s : State) : s.copySetUp.op = s.op := rfl
@[simp] theorem State.copySetUp_size (s : State) : s.copySetUp.size = s.size := rfl
@[simp] theorem State.copySetUp_flagIdx (s : State) : s.copySetUp.flagIdx = s.flagIdx := rfl

theorem State.copySetUp_disp_toNat (s : State) : s.copySetUp.disp.toNat = s.tokenAt.toNat % 4096 + 1 :=
  extract_disp_toNat _

theorem State.copySetUp_rem_toNat (s : State) :
    s.copySetUp.rem.toNat = min (s.tokenAt.toNat / 4096 + 3) (s.size.toNat - s.op.toNat) := by
  rw [← extract_count_toNat]
  exact s.copyLength_toNat _

/-- A copy set up with its displacement inside the output is ready for its first step (42_backref.md R144). -/
theorem State.copySetUp_copyReady {s : State} (sel : s.selected = some .b16)
    (near : s.tokenAt.toNat % 4096 + 1 ≤ s.op.toNat) : s.copySetUp.copyReady = true := by
  obtain ⟨-, hf, room, -⟩ := (State.selected_b16 s).1 sel
  rw [State.copyReady_iff, State.copySetUp_rem_toNat, State.copySetUp_disp_toNat, State.copySetUp_op,
    State.copySetUp_size, State.copySetUp_flagIdx]
  omega

/-- The fetch of a back-reference with both bytes left and its displacement inside the output sets up the copy
(42_backref.md R141). -/
theorem step_fetchBackRef {s : State} (hh : s.host = []) (sel : s.selected = some .b16)
    (len : s.ip.toNat + 2 ≤ s.inLen.toNat) (le : s.inLen.toNat ≤ s.cfg.maxInput)
    (near : s.tokenAt.toNat % 4096 + 1 ≤ s.op.toNat) :
    step s = .next s.copySetUp :=
  (step_next_iff hh).2 (.backRef sel len (Nat.le_trans len le) (by rwa [extract_disp_toNat]))

/-- A COPY step with more than one byte to go appends the window's byte and stays in COPY (42_backref.md R145). -/
theorem step_copyMore {s : State} (hh : s.host = []) (st : s.st = .copy) (ready : s.copyReady = true)
    (more : 1 < s.rem.toNat) :
    step s = .next { s.emit s.windowRead with rem := s.rem - 1, st := .copy } :=
  (step_next_iff hh).2 (.copyMore st ready (by omega))

/-- A COPY step with more than one byte to go leaves the copy ready for the next one. -/
theorem copyReady_next {s : State} (ready : s.copyReady = true) (more : 1 < s.rem.toNat) :
    ({ s.emit s.windowRead with rem := s.rem - 1, st := .copy } : State).copyReady = true := by
  obtain ⟨rem_pos, rem_le, disp_pos, disp_le, hf⟩ := s.copyReady_iff.1 ready
  have hop : (s.op + 1).toNat = s.op.toNat + 1 := s.op_add_one (by omega)
  rw [State.copyReady_iff]
  simp only [State.emit_size, State.emit_op, State.emit_disp, State.emit_flagIdx, hop, s.rem_sub_one rem_pos]
  omega

/-- The last COPY step appends the window's byte and completes the token (42_backref.md R145). -/
theorem step_copyLast {s : State} (hh : s.host = []) (st : s.st = .copy) (ready : s.copyReady = true)
    (last : s.rem = 1) :
    step s = .next ({ s.emit s.windowRead with rem := s.rem - 1 } : State).afterToken := by
  have hrem : s.rem.toNat - 1 = 0 := by rw [last]; rfl
  rw [step_engine hh, engineStep_copy st, copyStep, if_pos ready, if_pos hrem]

/-! ### The bytes of a copy -/

/-- Appending a byte raises the output length by 1 where the output is short of `size`. -/
theorem State.emit_op_toNat (s : State) (b : Byte) (room : s.op.toNat < s.size.toNat) :
    (s.emit b).op.toNat = s.op.toNat + 1 :=
  s.op_add_one room

/-- The window's byte appended `n` times, read afresh after every byte: what `n` COPY steps write. -/
def State.copyBytes : Nat → State → State
  | 0, s => s
  | n + 1, s => State.copyBytes n (s.emit s.windowRead)

/-- The bytes copied do not depend on the count of bytes left or on the state of the sequencer. -/
theorem State.copyBytes_with (n : Nat) (s : State) (r : BitVec 5) (q : St) :
    State.copyBytes n { s with rem := r, st := q } = { s.copyBytes n with rem := r, st := q } := by
  induction n generalizing s with
  | zero => rfl
  | succ n ih => exact ih (s.emit s.windowRead)

/-- Copying bytes writes `OUT` and `op` alone. -/
theorem State.copyBytes_frame (n : Nat) (s : State) :
    s.copyBytes n = { s with outMem := (s.copyBytes n).outMem, op := (s.copyBytes n).op } := by
  induction n generalizing s with
  | zero => rfl
  | succ n ih => exact ih (s.emit s.windowRead)

@[simp] theorem State.copyBytes_size (n : Nat) (s : State) : (s.copyBytes n).size = s.size := by
  rw [State.copyBytes_frame]

@[simp] theorem State.copyBytes_ip (n : Nat) (s : State) : (s.copyBytes n).ip = s.ip := by
  rw [State.copyBytes_frame]

/-- The output length grows by the bytes copied, where there is room for them. -/
theorem State.copyBytes_op {n : Nat} {s : State} (room : s.op.toNat + n ≤ s.size.toNat) :
    (s.copyBytes n).op.toNat = s.op.toNat + n := by
  induction n generalizing s with
  | zero => rfl
  | succ n ih =>
    have hop := s.emit_op_toNat s.windowRead (by omega)
    rw [State.copyBytes, ih (by rw [hop, State.emit_size]; omega), hop]
    omega

/-- Copying leaves every byte of `OUT` alone but the `n` from `op` up. -/
theorem State.copyBytes_outByte_other {n a : Nat} {s : State} (room : s.op.toNat + n ≤ s.size.toNat)
    (ha : a < s.op.toNat ∨ s.op.toNat + n ≤ a) : (s.copyBytes n).outByte a = s.outByte a := by
  induction n generalizing s with
  | zero => rfl
  | succ n ih =>
    have hop := s.emit_op_toNat s.windowRead (by omega)
    rw [State.copyBytes, ih (by rw [hop, State.emit_size]; omega) (by omega), State.emit_outByte,
      if_neg (by omega)]

/-- Each byte copied is the byte `disp` positions before it, in the output as it is after the copy. -/
theorem State.copyBytes_outByte {n j : Nat} {s : State} (room : s.op.toNat + n ≤ s.size.toNat)
    (disp_pos : 1 ≤ s.disp.toNat) (disp_le : s.disp.toNat ≤ s.op.toNat) (hj : j < n) :
    (s.copyBytes n).outByte (s.op.toNat + j) = (s.copyBytes n).outByte (s.op.toNat + j - s.disp.toNat) := by
  induction n generalizing s j with
  | zero => omega
  | succ n ih =>
    have hop := s.emit_op_toNat s.windowRead (by omega)
    have room' : (s.emit s.windowRead).op.toNat + n ≤ (s.emit s.windowRead).size.toNat := by
      rw [hop, State.emit_size]; omega
    cases j with
    | zero =>
      calc (s.copyBytes (n + 1)).outByte s.op.toNat
          = (s.emit s.windowRead).outByte s.op.toNat := State.copyBytes_outByte_other room' (by omega)
        _ = s.outByte (s.op.toNat - s.disp.toNat) := by rw [State.emit_outByte, if_pos rfl, State.windowRead]
        _ = (s.copyBytes (n + 1)).outByte (s.op.toNat - s.disp.toNat) :=
          (State.copyBytes_outByte_other room (by omega)).symm
    | succ j =>
      have := ih (j := j) room' disp_pos (by rw [hop, State.emit_disp]; omega) (by omega)
      rwa [hop, State.emit_disp, Nat.add_right_comm] at this

/-- A copy in progress runs to the end of its token in as many steps as there are bytes left. -/
theorem run_copy {n : Nat} {s : State} (hh : s.host = []) (st : s.st = .copy) (ready : s.copyReady = true)
    (hn : s.rem.toNat = n + 1) :
    Host.Core.run core (n + 1) s = .next ({ s.copyBytes (n + 1) with rem := 0 } : State).afterToken := by
  induction n generalizing s with
  | zero =>
    have last : s.rem = 1 := BitVec.eq_of_toNat_eq hn
    rw [run_succ (step_copyLast hh st ready last), last]
    rfl
  | succ n ih =>
    have more : 1 < s.rem.toNat := by omega
    have hrem : (s.rem - 1).toNat = n + 1 := by rw [s.rem_sub_one (by omega), hn]; rfl
    have tail := ih (s := { s.emit s.windowRead with rem := s.rem - 1, st := .copy }) hh rfl
      (copyReady_next ready more) hrem
    rw [run_succ (step_copyMore hh st ready more), tail, State.copyBytes_with]
    rfl

/-- A back-reference whose fetch does not fail runs to the end of its token in the fetch and one step a byte. -/
theorem run_backRef {s : State} (hh : s.host = []) (sel : s.selected = some .b16)
    (len : s.ip.toNat + 2 ≤ s.inLen.toNat) (le : s.inLen.toNat ≤ s.cfg.maxInput)
    (near : s.tokenAt.toNat % 4096 + 1 ≤ s.op.toNat) :
    Host.Core.run core (1 + s.copySetUp.rem.toNat) s =
      .next ({ s.copySetUp.copyBytes s.copySetUp.rem.toNat with rem := 0 } : State).afterToken := by
  have ready := State.copySetUp_copyReady sel near
  obtain ⟨rem_pos, -⟩ := (State.copyReady_iff _).1 ready
  obtain ⟨n, hn⟩ := Nat.exists_eq_add_of_le' rem_pos
  rw [Nat.add_comm, run_succ (step_fetchBackRef hh sel len le near), hn]
  exact run_copy (s := s.copySetUp) hh rfl ready hn

/-- A completed token leaves the sequencer neither in COPY nor in ERROR. -/
theorem State.afterToken_st_ne (s : State) : s.afterToken.st ≠ .copy ∧ s.afterToken.st ≠ .error := by
  rw [State.afterToken_st]
  split <;> [skip; split] <;> simp

end Sys2Proof.Machine

namespace Sys2Proof.Proofs

open Sys2Proof.Machine

/-- Settles O4: the two fields as quotient and remainder, and the one value that operands in range come from. -/
theorem extractIsTheBijection : Obligations.ExtractIsTheBijection := by
  unfold Obligations.ExtractIsTheBijection
  refine ⟨fun v => ?rule, fun count disp hc hc' hd hd' => ?bijection, by decide⟩
  case rule =>
    have := v.isLt
    rw [extract_count_toNat, extract_disp_toNat]
    omega
  case bijection =>
    have unique (v : BitVec 16) := extract_toNat_iff v ⟨hc, hc'⟩ ⟨hd, hd'⟩
    exact ⟨_, (unique _).2 rfl, fun v => (unique v).1⟩

/-- Settles O22: two failures in the rule's order, else the copy set up, with the fields of the token as numbers. -/
theorem backReferenceFetch : Obligations.BackReferenceFetch := by
  unfold Obligations.BackReferenceFetch
  intro s v hh st hf room le flag hv
  obtain rfl := State.tokenAt_eq hv
  have sel : s.selected = some .b16 := (State.selected_b16 s).2 ⟨st, hf, room, flag⟩
  refine ⟨fun short => ?truncated, fun len far => ?far, fun len near => ⟨?fetches, by omega⟩⟩
  case truncated => exact step_fail hh (.noToken sel (by omega))
  case far =>
    have len : s.ip.toNat + 2 ≤ s.inLen.toNat := by omega
    exact step_fail hh (.farBack sel len (Nat.le_trans len le) (by rwa [extract_disp_toNat]))
  case fetches =>
    rw [step_fetchBackRef hh sel (by omega) le near, State.copySetUp, State.copyLength, extract_count_toNat,
      ← extract_disp_toNat, BitVec.ofNat_toNat, BitVec.setWidth_eq]

/-- Settles O25: a copy in progress is ready for its step, which is the last exactly where one byte is left. -/
theorem copyStepAppendsOneByte : Obligations.CopyStepAppendsOneByte := by
  unfold Obligations.CopyStepAppendsOneByte
  intro s hh st rem_pos rem_le disp_pos disp_le hf
  have ready : s.copyReady = true := s.copyReady_iff.2 ⟨rem_pos, rem_le, disp_pos, disp_le, hf⟩
  refine ⟨fun more => ?more, fun last => ?last⟩
  case more =>
    have : s.rem.toNat ≠ 1 := fun h => more (BitVec.eq_of_toNat_eq h)
    exact step_copyMore hh st ready (by omega)
  case last =>
    rw [step_copyLast hh st ready last, s.copyLast_eq (by omega), last]
    rfl

/-- Settles O28: after the fetch the copy runs `min(count, size − op)` steps, whose bytes are those of `copyBytes`. -/
theorem copyStopsAtTheDeclaredSize : Obligations.CopyStopsAtTheDeclaredSize := by
  unfold Obligations.CopyStopsAtTheDeclaredSize
  intro s v hh st hf room le flag hv len near
  obtain rfl := State.tokenAt_eq hv
  have sel : s.selected = some .b16 := (State.selected_b16 s).2 ⟨st, hf, room, flag⟩
  have hrem := s.copySetUp_rem_toNat
  have hdisp := s.copySetUp_disp_toNat
  have room' : s.copySetUp.op.toNat + s.copySetUp.rem.toNat ≤ s.copySetUp.size.toNat := by
    rw [State.copySetUp_op, State.copySetUp_size]
    omega
  have hop := State.copyBytes_op room'
  rw [← hrem]
  refine ⟨_, run_backRef hh sel len le near, hop, ?ip, (State.afterToken_st_ne _).1, (State.afterToken_st_ne _).2,
    fun full => ?done, fun j hj => ?copied, fun a ha => ?kept⟩
  case ip =>
    rw [State.afterToken_ip, State.copyBytes_ip]
    exact s.ip_add_two len
  case done =>
    rw [State.afterToken_st, if_pos]
    rw [State.copyBytes_size, hop, State.copySetUp_op, State.copySetUp_size]
    omega
  case copied =>
    rw [← hdisp]
    exact State.copyBytes_outByte room' (by omega) (by rwa [hdisp]) hj
  case kept => exact State.copyBytes_outByte_other room' (ha.imp id room'.trans)

end Sys2Proof.Proofs
end

section
/-! SUPPORT. The literal token as the machine's next step (43_literal.md R170, R171), and the statement of 43_literal.md
it settles. -/
namespace Sys2Proof.Machine

/-- With a byte left, a selected literal appends the byte at the cursor and completes the token (43_literal.md R170). -/
theorem step_appendLiteral {s : State} (hh : s.host = []) (sel : s.selected = some .l8)
    (len : s.ip.toNat < s.inLen.toNat) (le : s.inLen.toNat ≤ s.cfg.maxInput) :
    step s = .next (({ s with ip := s.ip + 1 } : State).emit (s.inByte s.ip.toNat)).afterToken := by
  obtain ⟨-, -, room, -⟩ := (State.selected_l8 s).1 sel
  rw [s.literal_eq _ room]
  exact (step_next_iff hh).2 (.literal sel len (Nat.lt_of_lt_of_le len le))

/-- A literal writes its byte at `OUT[op]` and no other offset (43_literal.md R171). -/
theorem State.literal_outByte (s : State) (b : Byte) (a : Nat) :
    (({ s with ip := s.ip + 1 } : State).emit b).afterToken.outByte a =
      if a = s.op.toNat then b else s.outByte a := by
  rw [State.afterToken_outByte, State.emit_outByte]
  rfl

end Sys2Proof.Machine

namespace Sys2Proof.Proofs

open Sys2Proof.Machine

/-- Settles O19: with no byte left the literal's failure, else its byte appended, with the registers of one update. -/
theorem literalStep : Obligations.LiteralStep := by
  unfold Obligations.LiteralStep
  intro s hh st hf room le flag
  have sel : s.selected = some .l8 := (State.selected_l8 s).2 ⟨st, hf, room, flag⟩
  refine ⟨fun short => ?fails,
    fun len => ⟨_, step_appendLiteral hh sel len le, ?appended, ?registers, fun a ha => ?kept⟩⟩
  case fails => exact step_fail hh (.noLiteral sel short)
  case appended => rw [State.literal_outByte, if_pos rfl]
  case registers => exact s.literal_eq _ room
  case kept => rw [State.literal_outByte, if_neg ha]

end Sys2Proof.Proofs
end

section
/-! SUPPORT. The CMD write and START, and which register reads are unspecified (44_host.md R180 to R182), and the
statements of 44_host.md they settle. -/
namespace Sys2Proof.Machine

/-! ### A write to CMD, and START -/

/-- A CMD write with bit 0 set is START, with the other bits as its operand. -/
theorem hostWrite_cmd_set {w : Word} (s : State) (hw : w.getLsbD 0 = true) :
    hostWrite 0 w s = exec (.start (w.extractLsb' 1 31)) s := by
  rw [hostWrite, if_pos rfl, hostWriteCmd_eq, if_pos hw]

/-- A CMD write with bit 0 clear is ignored. -/
theorem hostWrite_cmd_clear {w : Word} (s : State) (hw : w.getLsbD 0 = false) : hostWrite 0 w s = .next s := by
  rw [hostWrite, if_pos rfl, hostWriteCmd_eq, hw]
  rfl

/-- START begins a run where the engine is not BUSY. -/
theorem exec_start_of_not_busy (x : BitVec 31) {s : State} (hb : s.busy = false) :
    exec (.start x) s = .next s.startRun := by
  simp [exec, execStart, hb]

/-- START is ignored while BUSY. -/
theorem exec_start_of_busy (x : BitVec 31) {s : State} (hb : s.busy = true) : exec (.start x) s = .next s := by
  simp [exec, execStart, hb]

/-- A register write is ignored unless it is a CMD write with bit 0 set or a write to IN_LEN while not BUSY
(44_host.md R182). -/
theorem hostWrite_no_effect {n : Nat} {w : Word} {s : State} (notStart : ¬(n = 0 ∧ w.getLsbD 0 = true))
    (notInLen : ¬(n = 3 ∧ s.busy = false)) : hostWrite n w s = .next s := by
  by_cases h0 : n = 0
  · subst h0
    exact hostWrite_cmd_clear s (Bool.eq_false_of_not_eq_true fun hw => notStart ⟨rfl, hw⟩)
  by_cases h3 : n = 3
  · subst h3
    have hb : s.busy = true := Bool.eq_true_of_not_eq_false fun hb => notInLen ⟨rfl, hb⟩
    rw [hostWrite_inLen, if_pos hb]
  · exact hostWrite_ignored w s h0 h3

/-! ### Which register reads are unspecified -/

/-- The reads with an unspecified value are those of IN_PTR, OUT_LEN and CTRL_STATE while BUSY (10_state.md R39 to
R41). -/
theorem State.unspecifiedReg_iff (s : State) (n : Nat) :
    s.unspecifiedReg n = true ↔ s.busy = true ∧ (n = 5 ∨ n = 6 ∨ n = 7) := by
  simp [State.unspecifiedReg, or_assoc]

/-- An unspecified register replies a free value in the bits it defines. -/
theorem hostReadReg_unspecified {n : Nat} {s : State} (hu : s.unspecifiedReg n = true) :
    hostReadReg n s = .next (s.replyUnspecified (regMask n)) := by
  rw [hostReadReg, if_pos hu]

end Sys2Proof.Machine

namespace Sys2Proof.Proofs

open Sys2Proof.Machine

/-- Settles O31: a CMD write is START or ignored by bit 0, and START begins a run or is ignored by BUSY. -/
theorem startCommandBeginsARun : Obligations.StartCommandBeginsARun := by
  unfold Obligations.StartCommandBeginsARun
  intro s w ms h
  rw [step_writeReg h]
  refine ⟨fun set idle => ?begins, fun set busy => ?whileBusy, fun clear => ?clear⟩
  case begins => exact (hostWrite_cmd_set _ set).trans (exec_start_of_not_busy _ idle)
  case whileBusy => exact (hostWrite_cmd_set _ set).trans (exec_start_of_busy _ busy)
  case clear => exact hostWrite_cmd_clear _ clear

/-- Settles O34, by the register written: CMD, IN_LEN or another. -/
theorem onlyTwoRegisterWritesHaveEffect : Obligations.OnlyTwoRegisterWritesHaveEffect := by
  unfold Obligations.OnlyTwoRegisterWritesHaveEffect
  intro s n w ms h
  rw [step_writeReg h]
  refine ⟨fun notStart notInLen => ?ignored, fun cmd set => ?start, fun reg idle => ?inLen⟩
  case ignored => exact hostWrite_no_effect notStart notInLen
  case start => rw [cmd, hostWrite_cmd_set _ set]
  case inLen =>
    rw [reg, hostWrite_inLen, if_neg]
    exact Bool.eq_false_iff.1 idle

/-- Settles O37: a read draws a free value exactly where the register is unspecified, else it replies the value of the
rules, since FLAGIDX is one that is produced. -/
theorem registerReadsHaveNoSideEffect : Obligations.RegisterReadsHaveNoSideEffect := by
  unfold Obligations.RegisterReadsHaveNoSideEffect
  intro s n ms h hf
  rw [step_readReg h]
  refine ⟨fun specified => ?value, fun busy position => ?free⟩
  case value =>
    have hu : ({ s with host := ms } : State).unspecifiedReg n = false :=
      Bool.eq_false_iff.2 (mt (State.unspecifiedReg_iff _ n).1 specified)
    rw [hostReadReg_specified hu fun _ => hf]
    rfl
  case free => exact ⟨_, hostReadReg_unspecified ((State.unspecifiedReg_iff _ n).2 ⟨busy, position⟩)⟩

end Sys2Proof.Proofs
end

section
/-! SUPPORT. Failure entry and rest: what a failing step names, and what can wake an engine that is not BUSY
(60_exceptions.md R200 to R216), and the statements of 60_exceptions.md they settle. -/
namespace Sys2Proof.Machine

/-! ### The failure a step takes -/

/-- A failing step names a kind of failure. -/
theorem Fails.ne_none {s : State} {e : ErrCode} (h : Fails s e) : e ≠ .none := by
  rintro rfl
  cases h

/-- With no host move pending, a step enters ERROR only through the failure entry (60_exceptions.md R204). -/
theorem step_eq_raise {s t : State} (hh : s.host = []) (hs : s.st ≠ .error) (h : step s = .next t)
    (ht : t.st = .error) : ∃ e, Fails s e ∧ t = s.raise e :=
  ((step_next_iff hh).1 h).eq_raise hs ht

/-! ### An engine that is not BUSY -/

/-- With no host move pending, an engine that is not BUSY holds its state. -/
theorem step_rest {s : State} (hh : s.host = []) (idle : s.busy = false) : step s = .next s := by
  rw [step_engine hh, engineStep_rest idle]

/-- An engine that is not BUSY has no move but to rest. -/
theorem EngineMove.eq_of_not_busy {s t : State} (h : EngineMove s t) (idle : s.busy = false) : t = s := by
  have moves := (engineStep_next_iff s t).2 h
  rw [engineStep_rest idle] at moves
  cases moves
  rfl

/-- Of the host's moves only a CMD write with bit 0 set wakes an engine that is not BUSY (60_exceptions.md R216). -/
theorem HostEffect.start_of_wakes {s t : State} {m : HostMove} (h : HostEffect s m t) (idle : s.busy = false)
    (woken : t.busy = true) : ∃ w : Word, m = .writeReg 0 w ∧ w.getLsbD 0 = true := by
  have asleep {u : State} (busy_eq : u.busy = s.busy) : u.busy ≠ true := by simp [busy_eq, idle]
  cases h with
  | start w bit => exact ⟨w, rfl, bit⟩
  | reset => cases woken
  | reply | replyUnspecified | ignored | inLen | writeIn | writeOut => exact absurd woken (asleep rfl)
  | pass t move => exact absurd woken (asleep (congrArg State.busy (move.eq_of_not_busy idle)))

end Sys2Proof.Machine

namespace Sys2Proof.Proofs

open Sys2Proof.Machine

/-- Settles O44: ERROR is entered through `raise` alone, and is a state of rest. -/
theorem failureEntryIsPrecise : Obligations.FailureEntryIsPrecise := by
  unfold Obligations.FailureEntryIsPrecise
  refine ⟨fun s t hh hs h ht => ?entry, fun s hh st => ?rest⟩
  case entry =>
    obtain ⟨e, fails, rfl⟩ := step_eq_raise hh hs h ht
    exact ⟨e, fails.ne_none, rfl⟩
  case rest => exact step_rest hh (s.not_busy_iff.2 (.inr (.inr st)))

/-- Settles O45, by the failures a step can take: each names its step and its cause. -/
theorem stepsRaiseTheirOwnFailures : Obligations.StepsRaiseTheirOwnFailures := by
  unfold Obligations.StepsRaiseTheirOwnFailures
  refine ⟨rfl, fun s t hh hs h ht => ?_⟩
  obtain ⟨e, fails, rfl⟩ := step_eq_raise hh hs h ht
  cases fails with
  | tooSmall st len => exact .inl ⟨st, .inl ⟨rfl, len⟩⟩
  | tooLarge st ge len => exact .inl ⟨st, .inr (.inl ⟨rfl, len⟩)⟩
  | invalidTag st ge le tag => exact .inl ⟨st, .inr (.inr ⟨rfl, tag⟩)⟩
  | noControl st room len => exact .inr (.inl ⟨st, rfl, room, len⟩)
  | noLiteral sel len =>
    obtain ⟨st, -, room, flag⟩ := s.selected_l8.1 sel
    exact .inr (.inr (.inl ⟨st, flag, rfl, room, len⟩))
  | noToken sel len =>
    obtain ⟨st, -, room, flag⟩ := s.selected_b16.1 sel
    exact .inr (.inr (.inr ⟨st, flag, .inl ⟨rfl, room, len⟩⟩))
  | farBack sel len cap far =>
    obtain ⟨st, -, -, flag⟩ := s.selected_b16.1 sel
    exact .inr (.inr (.inr ⟨st, flag, .inr ⟨rfl, far⟩⟩))

/-- Settles O47: an engine not BUSY rests, so only the effect of the host's move can wake it. -/
theorem onlyStartWakesTheEngine : Obligations.OnlyStartWakesTheEngine := by
  unfold Obligations.OnlyStartWakesTheEngine
  refine ⟨fun s st hh => ?rest, fun s t m ms idle hm h woken => ?wake⟩
  case rest => exact step_rest hh (s.not_busy_iff.2 st)
  case wake =>
    rw [step_host hm (.inr idle)] at h
    exact (hostStep_next h).start_of_wakes idle woken

end Sys2Proof.Proofs
end

section
/-! SUPPORT. The reset signal and the state it leaves (70_reset_and_hazards.md R230), and the statement of
70_reset_and_hazards.md it settles. -/
namespace Sys2Proof.Machine

/-- A pending reset is the next step, also while BUSY. -/
theorem step_reset {s : State} {ms : List HostMove} (h : s.host = .reset :: ms) :
    step s = .next ({ s with host := ms } : State).resetSignal :=
  step_host h (.inl nofun)

/-- CTRL_STATE reads 0 where no control byte is held and no flag is used (10_state.md R41). -/
theorem State.ctrlStateWord_eq_zero {s : State} (hf : s.flagIdx = 0) (hc : s.ctrl = 0) : s.ctrlStateWord = 0 := by
  rw [State.ctrlStateWord, hf, hc]
  rfl

/-- Every host register reads 0 after the reset signal. -/
theorem State.resetSignal_regValue (s : State) : ∀ n, s.resetSignal.regValue n = 0
  | 0 => rfl
  | 1 => State.statusWord_idle rfl
  | 2 => rfl
  | 3 => rfl
  | 4 => rfl
  | 5 => rfl
  | 6 => rfl
  | 7 => State.ctrlStateWord_eq_zero rfl rfl
  | _ + 8 => rfl

/-- A byte of `IN` that nothing has written is the free value of its offset. -/
theorem State.inByte_of_unwritten {s : State} {a : Nat} (h : s.inMem.read a = none) :
    s.inByte a = Config.unwritten .input s.resets a := by
  rw [State.inByte, h, Option.getD_none]

/-- A byte of `OUT` that nothing has written is the free value of its offset. -/
theorem State.outByte_of_unwritten {s : State} {a : Nat} (h : s.outMem.read a = none) :
    s.outByte a = Config.unwritten .output s.resets a := by
  rw [State.outByte, h, Option.getD_none]

/-- In IDLE the host sees the contents of `OUT`, whether or not it wrote them itself. -/
theorem State.outSeen_of_idle {s : State} (h : s.st = .idle) (a : Nat) : s.outSeen a = s.outByte a := by
  rw [State.outSeen, h]
  exact ite_self _

/-- There is no result in IDLE. -/
theorem State.result_of_idle {s : State} (h : s.st = .idle) : s.result = none := by
  rw [State.result, h]

end Sys2Proof.Machine

namespace Sys2Proof.Proofs

open Sys2Proof.Machine

/-- Settles O42: the next state is the one the reset signal leaves, which is IDLE with every register 0 and both memories
unwritten. -/
theorem resetSignalSetsEveryRegister : Obligations.ResetSignalSetsEveryRegister := by
  unfold Obligations.ResetSignalSetsEveryRegister
  intro s ms h
  refine ⟨_, step_reset h, rfl, rfl, rfl, rfl, rfl, rfl, rfl, rfl, rfl, rfl, State.resetSignal_regValue _,
    State.result_of_idle rfl, fun a => ⟨Memory.read_nil a, Memory.read_nil a⟩, fun a => ⟨?input, ?output⟩, rfl, rfl⟩
  case input => exact State.inByte_of_unwritten (Memory.read_nil a)
  case output => exact (State.outSeen_of_idle rfl a).trans (State.outByte_of_unwritten (Memory.read_nil a))

end Sys2Proof.Proofs
end

section
/-! SUPPORT. Decoder and encoder as inverses of each other (30_encoding.md sections 1 and 2), operand by operand, and
the statements of 30_encoding.md they settle. -/
namespace Sys2Proof.Machine

/-! ### The operands, taken apart and put together -/

/-- The size is put together from its three bytes, the low one first. -/
theorem littleEndian24_extract (v : BitVec 24) :
    littleEndian24 (v.extractLsb' 0 8) (v.extractLsb' 8 8) (v.extractLsb' 16 8) = v := by
  have := v.isLt
  apply BitVec.eq_of_toNat_eq
  simp only [littleEndian24_toNat, BitVec.extractLsb'_toNat, Nat.shiftRight_eq_div_pow]
  omega

/-- The bytes of a size are those it was put together from. -/
theorem extract_littleEndian24 (a b c : Byte) :
    (littleEndian24 a b c).extractLsb' 0 8 = a ∧ (littleEndian24 a b c).extractLsb' 8 8 = b ∧
      (littleEndian24 a b c).extractLsb' 16 8 = c := by
  have := a.isLt; have := b.isLt; have := c.isLt
  simp only [← BitVec.toNat_inj, BitVec.extractLsb'_toNat, littleEndian24_toNat, Nat.shiftRight_eq_div_pow]
  omega

/-- A token value is put together from its two bytes, the high one first. -/
theorem bigEndian16_extract (v : BitVec 16) : bigEndian16 (v.extractLsb' 8 8) (v.extractLsb' 0 8) = v := by
  have := v.isLt
  apply BitVec.eq_of_toNat_eq
  simp only [bigEndian16_toNat, BitVec.extractLsb'_toNat, Nat.shiftRight_eq_div_pow]
  omega

/-- The bytes of a token value are those it was put together from. -/
theorem extract_bigEndian16 (hi lo : Byte) :
    (bigEndian16 hi lo).extractLsb' 8 8 = hi ∧ (bigEndian16 hi lo).extractLsb' 0 8 = lo := by
  have := hi.isLt; have := lo.isLt
  simp only [← BitVec.toNat_inj, BitVec.extractLsb'_toNat, bigEndian16_toNat, Nat.shiftRight_eq_div_pow]
  omega

/-- A register value as a number, the first byte the most significant. -/
theorem wordOfBytes_toNat (b3 b2 b1 b0 : Byte) :
    (wordOfBytes b3 b2 b1 b0).toNat = 16777216 * b3.toNat + 65536 * b2.toNat + 256 * b1.toNat + b0.toNat := by
  have := b2.isLt; have := b1.isLt; have := b0.isLt
  have append {m n : Nat} (x : BitVec m) (y : BitVec n) : (x ++ y).toNat = x.toNat * 2 ^ n + y.toNat := by
    rw [BitVec.toNat_append, ← Nat.shiftLeft_add_eq_or_of_lt y.isLt, Nat.shiftLeft_eq]
  simp only [wordOfBytes, append]
  omega

/-- The bytes of a register value are those it was put together from. -/
theorem bytesOfWord_wordOfBytes (b3 b2 b1 b0 : Byte) : bytesOfWord (wordOfBytes b3 b2 b1 b0) = [b3, b2, b1, b0] := by
  have := b3.isLt; have := b2.isLt; have := b1.isLt; have := b0.isLt
  simp only [bytesOfWord, List.cons.injEq, and_true, ← BitVec.toNat_inj, BitVec.extractLsb'_toNat, wordOfBytes_toNat,
    Nat.shiftRight_eq_div_pow]
  omega

/-- The value of a token holds its operands in the two fields (30_encoding.md R84). -/
theorem packToken_toNat {count : BitVec 5} {disp : BitVec 13} (hc : 3 ≤ count.toNat ∧ count.toNat ≤ 18)
    (hd : 1 ≤ disp.toNat ∧ disp.toNat ≤ 4096) :
    (packToken count disp).toNat = 4096 * (count.toNat - 3) + (disp.toNat - 1) := by
  have three : (3 : BitVec 5).toNat = 3 := rfl
  have one : (1 : BitVec 13).toNat = 1 := rfl
  have low : ((disp - 1).setWidth 12).toNat = disp.toNat - 1 := by
    rw [BitVec.toNat_setWidth, BitVec.toNat_sub_of_le (BitVec.le_def.2 (by omega))]
    omega
  have high : ((count - 3).setWidth 4).toNat = count.toNat - 3 := by
    rw [BitVec.toNat_setWidth, BitVec.toNat_sub_of_le (BitVec.le_def.2 (by omega))]
    omega
  rw [packToken, BitVec.toNat_append, ← Nat.shiftLeft_add_eq_or_of_lt (by omega), low, high, Nat.shiftLeft_eq]
  omega

/-- Operands in range are read back from the token value that holds them. -/
theorem extract_packToken {count : BitVec 5} {disp : BitVec 13} (hc : 3 ≤ count.toNat ∧ count.toNat ≤ 18)
    (hd : 1 ≤ disp.toNat ∧ disp.toNat ≤ 4096) : extract (packToken count disp) = (count, disp) := by
  have hv : packToken count disp = BitVec.ofNat 16 (4096 * (count.toNat - 3) + (disp.toNat - 1)) := by
    rw [← packToken_toNat hc hd, BitVec.ofNat_toNat, BitVec.setWidth_eq]
  obtain ⟨hcount, hdisp⟩ := (extract_toNat_iff _ hc hd).2 hv
  exact Prod.ext (BitVec.eq_of_toNat_eq hcount) (BitVec.eq_of_toNat_eq hdisp)

/-- The operands read from a token value, packed again, are that value. -/
theorem packToken_extract (v : BitVec 16) : packToken (extract v).1 (extract v).2 = v := by
  have := v.isLt
  have hc := extract_count_toNat v
  have hd := extract_disp_toNat v
  apply BitVec.eq_of_toNat_eq
  rw [packToken_toNat (by omega) (by omega), hc, hd]
  omega

/-- A register value made of ignored bits and a 1 is a START with those bits. -/
theorem startWord_bits (x : BitVec 31) :
    (x ++ (1 : BitVec 1)).getLsbD 0 = true ∧ (x ++ (1 : BitVec 1)).extractLsb' 1 31 = x := by
  constructor
  · rw [BitVec.getLsbD_append]
    rfl
  · ext i hi
    rw [BitVec.getElem_extractLsb', BitVec.getLsbD_append, if_neg (by omega), Nat.add_sub_cancel_left,
      BitVec.getLsbD_eq_getElem hi]

/-- A register value with bit 0 set is its other bits and a 1. -/
theorem startWord_eq {w : Word} (h : w.getLsbD 0 = true) : w.extractLsb' 1 31 ++ (1 : BitVec 1) = w := by
  apply BitVec.eq_of_getLsbD_eq
  intro i hi
  rw [BitVec.getLsbD_append]
  cases i with
  | zero => exact h.symm
  | succ i =>
    rw [if_neg (by omega), BitVec.getLsbD_extractLsb', decide_eq_true (by omega), Bool.true_and, Nat.add_sub_cancel,
      Nat.add_comm]

end Sys2Proof.Machine

namespace Sys2Proof

open Sys2Proof.Machine

/-! ### Encodings -/

/-- An encoding has as many bytes as its format (30_encoding.md R80). -/
theorem encode_length (i : Instr) : (encode i).length = i.format.bytes := by
  cases i <;> rfl

/-- What the decoder reads has the format asked for, and encodes to the bytes it was read from. -/
theorem encode_of_decode {f : Format} {bs rest : List Byte} {i : Instr} (h : decode f bs = .ok (i, rest)) :
    i.format = f ∧ encode i ++ rest = bs := by
  obtain ⟨tag, a, b, c, rfl, rfl, rfl⟩ | ⟨b, rfl, rfl, rfl⟩ | ⟨b, rfl, rfl, rfl⟩ | ⟨hi, lo, rfl, rfl, rfl⟩ |
    ⟨b3, b2, b1, b0, rfl, rfl, bit, rfl⟩ := decode_ok_cases h
  case inl =>
    obtain ⟨ha, hb, hc⟩ := extract_littleEndian24 a b c
    exact ⟨rfl, by rw [encode, ha, hb, hc]; rfl⟩
  case inr.inl => exact ⟨rfl, rfl⟩
  case inr.inr.inl => exact ⟨rfl, rfl⟩
  case inr.inr.inr.inl =>
    obtain ⟨hhi, hlo⟩ := extract_bigEndian16 hi lo
    exact ⟨rfl, by rw [encode, packToken_extract, hhi, hlo]; rfl⟩
  case inr.inr.inr.inr => exact ⟨rfl, by rw [encode, startWord_eq bit, bytesOfWord_wordOfBytes]; rfl⟩

end Sys2Proof

namespace Sys2Proof.Proofs

open Sys2Proof.Machine

/-- Settles O1, by the instruction: each operand is put together again from the bytes it is written in. -/
theorem decodeOfEncode : Obligations.DecodeOfEncode := by
  unfold Obligations.DecodeOfEncode
  intro i rest wf
  cases i with
  | hdr tag size => simp [Instr.format, encode, decode, littleEndian24_extract]
  | ctrl flags => rfl
  | lit b => rfl
  | bref count disp =>
    simp only [Instr.wf, Bool.and_eq_true, decide_eq_true_eq, and_assoc] at wf
    obtain ⟨hc, hc', hd, hd'⟩ := wf
    simp [Instr.format, encode, decode, bigEndian16_extract, extract_packToken ⟨hc, hc'⟩ ⟨hd, hd'⟩]
  | start x =>
    obtain ⟨bit, operand⟩ := startWord_bits x
    simp only [Instr.format, encode, bytesOfWord, List.cons_append, List.nil_append, decode, wordOfBytes_extract, bit,
      operand, if_true]

/-- Settles O2: what was read encodes to the bytes it was read from, and an encoding is as long as its format. -/
theorem encodeOfDecode : Obligations.EncodeOfDecode := by
  unfold Obligations.EncodeOfDecode
  intro f bs rest i h
  obtain ⟨rfl, rfl⟩ := encode_of_decode h
  exact ⟨rfl, rfl, by rw [List.length_append, encode_length]⟩

/-- Settles O5: each word, decoded. -/
theorem sampleWordsDecode : Obligations.SampleWordsDecode := by
  unfold Obligations.SampleWordsDecode
  decide

end Sys2Proof.Proofs
end

section
/-! SUPPORT. The invariant of 10_state.md R44 under an engine step: the part that the steps rest on and keep for
themselves, what every step leaves alone, then the invariant clause by clause. -/
namespace Sys2Proof.Machine

/-! ### What the engine's steps rest on and keep -/

/-- The part of the invariant that the engine's steps rest on. They keep it whatever the parameters and the memories
are, so it holds along every run that a START begins. -/
structure State.Steady (s : State) : Prop where
  streaming : s.st = .ctrl ∨ s.st = .token ∨ s.st = .copy → s.Streaming
  token : s.st = .token → s.flagIdx.toNat ≤ 7 ∧ s.op.toNat < s.size.toNat
  copy : s.st = .copy → s.copyReady = true

theorem State.Inv.steady {s : State} (hi : s.Inv) : s.Steady where
  streaming := by
    rintro (st | st | st)
    · exact (hi.ctrl st).1
    · exact (hi.token st).1
    · exact (hi.copy st).1
  token st := (hi.token st).2
  copy st := (hi.copy st).2.1

/-- The cursor moved on inside the input is still inside the stream. -/
theorem State.Streaming.advance {s t : State} (h : s.Streaming) (cfg : t.cfg = s.cfg) (inLen : t.inLen = s.inLen)
    (first : t.inByte 0 = s.inByte 0) (ge : s.ip.toNat ≤ t.ip.toNat) (le : t.ip.toNat ≤ s.inLen.toNat) :
    t.Streaming where
  inLen_ge := inLen ▸ h.inLen_ge
  inLen_le := cfg ▸ inLen ▸ h.inLen_le
  tag := first ▸ h.tag
  ip_ge := h.ip_ge.trans ge
  ip_le := inLen ▸ le

/-- Every engine step of a run but a failing one leaves the cursor inside the stream. -/
theorem EngineMove.streaming {s t : State} (h : EngineMove s t) (hs : s.Steady) (busy : s.busy = true)
    (ht : t.st ≠ .error) : t.Streaming := by
  cases h with
  | rest idle => cases idle.symm.trans busy
  | fail e h => exact absurd rfl ht
  | finish st full =>
    have stream := hs.streaming (.inl st)
    exact stream.advance rfl rfl rfl le_rfl stream.ip_le
  | header st ge le tag => exact ⟨ge, le, tag, le_rfl, ge⟩
  | control st room len cap =>
    have ip := s.ip_add_one len
    exact (hs.streaming (.inl st)).advance rfl rfl rfl (by rw [ip]; omega) (by rw [ip]; omega)
  | literal sel len cap =>
    have ip := s.ip_add_one len
    have st := (s.selected_l8.1 sel).1
    exact (hs.streaming (.inr (.inl st))).advance rfl rfl rfl (by rw [ip]; omega) (by rw [ip]; omega)
  | backRef sel len cap near =>
    have ip := s.ip_add_two len
    have st := (s.selected_b16.1 sel).1
    exact (hs.streaming (.inr (.inl st))).advance rfl rfl rfl (by rw [ip]; omega) (by rw [ip]; omega)
  | copyLast st | copyMore st =>
    have stream := hs.streaming (.inr (.inr st))
    exact stream.advance rfl rfl rfl le_rfl stream.ip_le

/-- A completed token leaves the sequencer in no state but DONE, CTRL and TOKEN. -/
theorem State.tokenEndSt_ne (s : State) {q : St} (done : .done ≠ q) (ctrl : .ctrl ≠ q) (token : .token ≠ q) :
    s.tokenEndSt ≠ q := by
  obtain ⟨h, -⟩ | ⟨h, -⟩ | ⟨h, -⟩ := s.tokenEndSt_cases
  · exact h ▸ done
  · exact h ▸ ctrl
  · exact h ▸ token

/-- A completed token that stays in TOKEN has a flag left and room in the output. -/
theorem State.tokenEnd_token {s : State} (room : s.op.toNat < s.size.toNat) (hf : s.flagIdx.toNat ≤ 7)
    (h : s.tokenEndSt = .token) : (s.flagIdx + 1).toNat ≤ 7 ∧ (s.op + 1).toNat < s.size.toNat := by
  rw [s.op_add_one room, s.flagIdx_add_one hf]
  obtain ⟨h', -⟩ | ⟨h', -⟩ | ⟨-, room, idx⟩ := s.tokenEndSt_cases
  · cases h.symm.trans h'
  · cases h.symm.trans h'
  · omega

/-- A completed token that goes to CTRL was the eighth, and leaves room in the output. -/
theorem State.tokenEnd_ctrl {s : State} (room : s.op.toNat < s.size.toNat) (h : s.tokenEndSt = .ctrl) :
    s.flagIdx + 1 = 8 ∧ (s.op + 1).toNat < s.size.toNat := by
  rw [s.op_add_one room]
  obtain ⟨h', -⟩ | ⟨-, room, idx⟩ | ⟨h', -⟩ := s.tokenEndSt_cases
  · cases h.symm.trans h'
  · exact ⟨by rw [BitVec.eq_of_toNat_eq (y := 7) idx]; rfl, room⟩
  · cases h.symm.trans h'

/-- A completed token that ends the run has brought the output to `size`. -/
theorem State.tokenEnd_done {s : State} (room : s.op.toNat < s.size.toNat) (h : s.tokenEndSt = .done) :
    s.op + 1 = s.size := by
  apply BitVec.eq_of_toNat_eq
  rw [s.op_add_one room]
  obtain ⟨-, full⟩ | ⟨h', -⟩ | ⟨h', -⟩ := s.tokenEndSt_cases
  · omega
  · cases h.symm.trans h'
  · cases h.symm.trans h'

/-- A copy in progress has room in the output and a flag to use. -/
theorem State.room_of_copyReady {s : State} (ready : s.copyReady = true) :
    s.op.toNat < s.size.toNat ∧ s.flagIdx.toNat ≤ 7 := by
  obtain ⟨rem_pos, rem_le, -, -, hf⟩ := s.copyReady_iff.1 ready
  omega

/-- A selected literal has room in the output and a flag to use. -/
theorem State.room_of_literal {s : State} (sel : s.selected = some .l8) :
    s.op.toNat < s.size.toNat ∧ s.flagIdx.toNat ≤ 7 :=
  have ⟨_, hf, room, _⟩ := s.selected_l8.1 sel
  ⟨room, hf⟩

/-- The engine keeps what its steps rest on. -/
theorem EngineMove.steady {s t : State} (h : EngineMove s t) (hs : s.Steady) : t.Steady := by
  by_cases busy : s.busy = true
  case neg => exact h.eq_of_not_busy (Bool.eq_false_iff.2 busy) ▸ hs
  refine ⟨fun st => h.streaming hs busy (by rcases st with st | st | st <;> simp [st]), fun st => ?token,
    fun st => ?copy⟩
  case token =>
    cases h with
    | rest idle => exact hs.token st
    | fail | finish | header | backRef | copyMore => cases st
    | control _ room => exact ⟨Nat.zero_le 7, room⟩
    | literal sel =>
      obtain ⟨room, hf⟩ := State.room_of_literal sel
      exact State.tokenEnd_token room hf st
    | copyLast _ ready =>
      obtain ⟨room, hf⟩ := State.room_of_copyReady ready
      exact State.tokenEnd_token room hf st
  case copy =>
    cases h with
    | rest idle => exact hs.copy st
    | fail | finish | header | control => cases st
    | literal | copyLast => exact absurd st (s.tokenEndSt_ne nofun nofun nofun)
    | backRef sel _ _ near => exact State.copySetUp_copyReady sel (extract_disp_toNat _ ▸ near)
    | copyMore _ ready more => exact copyReady_next ready (by omega)

/-! ### Where an engine step stops -/

/-- Every way an engine step can stop. -/
inductive EngineStop (s : State) : Out → Prop
  | unselected (st : s.st = .check ∨ s.st = .ctrl ∨ s.st = .token) (sel : s.selected = none) :
      EngineStop s (.refused .neverProduced)
  | unready (st : s.st = .copy) (ready : ¬s.copyReady = true) : EngineStop s (.refused .neverProduced)
  | outside (f : Format) (sel : s.selected = some f) (hb : s.beforeFetch f = none)
      (cap : s.cfg.inCap < s.fetchOffset f + f.bytes) : EngineStop s (.fault (.noSuchOffset .input (s.fetchOffset f)))

/-- An engine step with a way to stop stops so. -/
theorem EngineStop.engineStep_eq {s : State} {o : Out} (h : EngineStop s o) : engineStep s = o := by
  cases h with
  | unselected st sel => rw [engineStep_busy st, elementStep, sel]
  | unready st ready => rw [engineStep_copy st, copyStep, if_neg ready]
  | outside f sel hb cap =>
    have nonempty : f.bytes ≠ 0 := by cases f <;> decide
    have fetch : s.fetchBytes f = none := by
      rw [State.fetchBytes, State.readIn_eq, if_neg (by omega)]
    rw [engineStep_busy (State.engine_selects sel), elementStep_run sel hb]
    simp [runElement, fetch]

/-- An element that lies inside `IN` is run or fails. -/
theorem exists_move_of_selected {s : State} {f : Format} (sel : s.selected = some f) (hb : s.beforeFetch f = none)
    (cap : s.fetchOffset f + f.bytes ≤ s.cfg.inCap) : ∃ t, EngineMove s t := by
  cases f with
  | h32 =>
    have st := s.selected_h32.1 sel
    obtain ⟨ge, le⟩ := s.beforeFetch_h32_none.1 hb
    by_cases tag : s.inByte 0 = formatTag
    · exact ⟨_, .header st ge le tag⟩
    · exact ⟨_, .fail _ (.invalidTag st ge le tag)⟩
  | c8 =>
    obtain ⟨room, len⟩ := s.beforeFetch_c8_none.1 hb
    exact ⟨_, .control (s.selected_c8.1 sel) room len cap⟩
  | l8 => exact ⟨_, .literal sel (s.beforeFetch_l8_none.1 hb) cap⟩
  | b16 =>
    have len := s.beforeFetch_b16_none.1 hb
    by_cases near : (extract s.tokenAt).2.toNat ≤ s.op.toNat
    · exact ⟨_, .backRef sel len cap near⟩
    · exact ⟨_, .fail _ (.farBack sel len cap (Nat.lt_of_not_le near))⟩
  | reg32 => exact absurd sel s.selected_reg32

/-- An engine step has a move or a way to stop. -/
theorem exists_move_or_stop (s : State) : (∃ t, EngineMove s t) ∨ ∃ o, EngineStop s o := by
  cases busy : s.busy with
  | false => exact .inl ⟨s, .rest busy⟩
  | true =>
    have element (st : s.st = .check ∨ s.st = .ctrl ∨ s.st = .token) :
        (∃ t, EngineMove s t) ∨ ∃ o, EngineStop s o := by
      cases sel : s.selected with
      | none => exact .inr ⟨_, .unselected st sel⟩
      | some f =>
        cases hb : s.beforeFetch f with
        | some t =>
          have run := (engineStep_busy st).trans (elementStep_before sel hb)
          exact .inl ⟨t, (engineStep_next_iff s t).1 run⟩
        | none =>
          by_cases cap : s.fetchOffset f + f.bytes ≤ s.cfg.inCap
          · exact .inl (exists_move_of_selected sel hb cap)
          · exact .inr ⟨_, .outside f sel hb (Nat.lt_of_not_le cap)⟩
    obtain st | st | st | st := s.busy_iff.1 busy
    · exact element (.inl st)
    · exact element (.inr (.inl st))
    · exact element (.inr (.inr st))
    · by_cases ready : s.copyReady = true
      · by_cases last : s.rem.toNat - 1 = 0
        · exact .inl ⟨_, .copyLast st ready last⟩
        · exact .inl ⟨_, .copyMore st ready last⟩
      · exact .inr ⟨_, .unready st ready⟩

/-- An engine step that answers no next state has a way to stop. -/
theorem engineStop_of_ne_next {s : State} (h : ∀ t, engineStep s ≠ .next t) : EngineStop s (engineStep s) := by
  obtain ⟨t, move⟩ | ⟨o, stop⟩ := exists_move_or_stop s
  · exact absurd ((engineStep_next_iff s t).2 move) (h t)
  · exact stop.engineStep_eq.symm ▸ stop

/-- A steady engine has no way to stop (60_exceptions.md section 1). -/
theorem State.Steady.not_stop {s : State} (hs : s.Steady) (o : Out) : ¬EngineStop s o := by
  intro h
  cases h with
  | unselected st sel =>
    obtain st | st | st := st
    · rw [s.selected_h32.2 st] at sel; cases sel
    · rw [s.selected_c8.2 st] at sel; cases sel
    · obtain ⟨hf, room⟩ := hs.token st
      rw [s.selected_token st hf room] at sel; cases sel
  | unready st ready => exact ready (hs.copy st)
  | outside f sel hb cap =>
    refine Nat.not_le.2 cap ?_
    cases f with
    | h32 =>
      obtain ⟨ge, le⟩ := s.beforeFetch_h32_none.1 hb
      exact ge.trans le
    | c8 =>
      obtain ⟨-, len⟩ := s.beforeFetch_c8_none.1 hb
      exact Nat.le_trans len (hs.streaming (.inl (s.selected_c8.1 sel))).inLen_le
    | l8 =>
      have len := s.beforeFetch_l8_none.1 hb
      exact Nat.le_trans len (hs.streaming (.inr (.inl (s.selected_l8.1 sel).1))).inLen_le
    | b16 =>
      have len := s.beforeFetch_b16_none.1 hb
      exact Nat.le_trans len (hs.streaming (.inr (.inl (s.selected_b16.1 sel).1))).inLen_le
    | reg32 => exact absurd sel s.selected_reg32

/-- A steady engine has a move. -/
theorem State.Steady.exists_move {s : State} (hs : s.Steady) : ∃ t, EngineMove s t :=
  (exists_move_or_stop s).resolve_right fun ⟨o, stop⟩ => hs.not_stop o stop

/-! ### The engine keeps the invariant -/

/-- The engine writes the registers of a run and `OUT`, and nothing else of the state. -/
theorem EngineMove.frame {s t : State} (h : EngineMove s t) :
    t = { s with
      st := t.st, size := t.size, ip := t.ip, op := t.op, ctrl := t.ctrl, flagIdx := t.flagIdx, disp := t.disp
      rem := t.rem, errcode := t.errcode, outMem := t.outMem } := by
  cases h <;> rfl

theorem EngineMove.cfg_eq {s t : State} (h : EngineMove s t) : t.cfg = s.cfg :=
  (congrArg State.cfg h.frame :)
theorem EngineMove.inLen_eq {s t : State} (h : EngineMove s t) : t.inLen = s.inLen :=
  (congrArg State.inLen h.frame :)
theorem EngineMove.inMem_eq {s t : State} (h : EngineMove s t) : t.inMem = s.inMem :=
  (congrArg State.inMem h.frame :)
theorem EngineMove.outHost_eq {s t : State} (h : EngineMove s t) : t.outHost = s.outHost :=
  (congrArg State.outHost h.frame :)
theorem EngineMove.resets_eq {s t : State} (h : EngineMove s t) : t.resets = s.resets :=
  (congrArg State.resets h.frame :)
theorem EngineMove.host_eq {s t : State} (h : EngineMove s t) : t.host = s.host :=
  (congrArg State.host h.frame :)

/-- The engine leaves `OUT` and its length alone, a header making the length 0, or it appends one byte. -/
theorem EngineMove.output {s t : State} (h : EngineMove s t) :
    (t.outMem = s.outMem ∧ (t.op = s.op ∨ s.st = .check ∧ t.op = 0)) ∨
      (s.op.toNat < s.size.toNat ∧ t.op = s.op + 1 ∧ ∃ b, t.outMem = s.outMem.write s.op.toNat b) := by
  cases h with
  | rest | fail | finish | control | backRef => exact .inl ⟨rfl, .inl rfl⟩
  | header st => exact .inl ⟨rfl, .inr ⟨st, rfl⟩⟩
  | literal sel => exact .inr ⟨(State.room_of_literal sel).1, rfl, _, rfl⟩
  | copyLast _ ready | copyMore _ ready => exact .inr ⟨(State.room_of_copyReady ready).1, rfl, _, rfl⟩

/-- An output short of the declared size has room in the memory. -/
theorem State.op_lt_outCap {s : State} (room : s.op.toNat < s.size.toNat) : s.op.toNat < s.cfg.outCap := by
  have := s.size.isLt
  rw [Config.outCap]
  omega

/-- The engine keeps the canonical form of `OUT`, inside its capacity, with every byte of the output written. -/
theorem EngineMove.outMem_inv {s t : State} (h : EngineMove s t) (hi : s.Inv) :
    t.outMem.wf ∧ (∀ c ∈ t.outMem, c.1 < t.cfg.outCap) ∧ ∀ a < t.op.toNat, t.outMem.read a ≠ none := by
  rw [h.cfg_eq]
  obtain ⟨mem, op | ⟨-, op⟩⟩ | ⟨room, op, b, mem⟩ := h.output
  · rw [mem, op]
    exact ⟨hi.outMem_wf, hi.outMem_cap, hi.out_listed⟩
  · rw [mem, op]
    exact ⟨hi.outMem_wf, hi.outMem_cap, fun a ha => absurd ha a.not_lt_zero⟩
  · rw [mem, op, s.op_add_one room]
    refine ⟨Memory.write_wf hi.outMem_wf _ _, fun c hc => ?_, fun a ha => ?_⟩
    · obtain rfl | hc := Memory.mem_write hc
      · exact State.op_lt_outCap room
      · exact hi.outMem_cap c hc
    · rw [Memory.read_write]
      split
      · exact Option.some_ne_none b
      · exact hi.out_listed a (by omega)

/-- The output never passes the declared size (41_control.md R121). -/
theorem EngineMove.op_le_size {s t : State} (h : EngineMove s t) (hi : s.Inv) : t.op.toNat ≤ t.size.toNat := by
  cases h with
  | rest | fail | finish | control | backRef => exact hi.op_le_size
  | header => exact Nat.zero_le _
  | literal sel =>
    have room := (State.room_of_literal sel).1
    exact s.op_add_one room ▸ room
  | copyLast _ ready | copyMore _ ready =>
    have room := (State.room_of_copyReady ready).1
    exact s.op_add_one room ▸ room

/-- No flag index above 8 is produced. -/
theorem EngineMove.flagIdx_le {s t : State} (h : EngineMove s t) (hi : s.Inv) : t.flagIdx.toNat ≤ 8 := by
  cases h with
  | rest | fail | finish | header | backRef | copyMore => exact hi.flagIdx_le
  | control => exact Nat.zero_le _
  | literal sel =>
    have hf := (State.room_of_literal sel).2
    exact s.flagIdx_add_one hf ▸ Nat.succ_le_succ hf
  | copyLast _ ready =>
    have hf := (State.room_of_copyReady ready).2
    exact s.flagIdx_add_one hf ▸ Nat.succ_le_succ hf

/-- A failure is recorded exactly in ERROR (60_exceptions.md R204). -/
theorem EngineMove.errcode_iff {s t : State} (h : EngineMove s t) (hi : s.Inv) (busy : s.busy = true) :
    t.st = .error ↔ t.errcode ≠ .none := by
  by_cases ht : t.st = .error
  · obtain ⟨e, fails, rfl⟩ := h.eq_raise (by rintro st; simp [State.busy, st] at busy) ht
    simp [fails.ne_none]
  · have kept : t.errcode = s.errcode := by
      cases h with
      | fail => exact absurd rfl ht
      | rest | finish | header | control | literal | backRef | copyLast | copyMore => rfl
    have none : s.errcode = .none := not_not.1 fun he => by simp [State.busy, hi.errcode_iff.2 he] at busy
    simp [ht, kept, none]

/-- No engine step of a run enters CHECK. -/
theorem EngineMove.st_ne_check {s t : State} (h : EngineMove s t) (busy : s.busy = true) : t.st ≠ .check := by
  cases h with
  | rest idle => cases idle.symm.trans busy
  | literal | copyLast => exact s.tokenEndSt_ne nofun nofun nofun
  | fail | finish | header | control | backRef | copyMore => nofun

/-- A step that enters CTRL is the header's, or ends the eighth token of a group with room left. -/
theorem EngineMove.ctrl_inv {s t : State} (h : EngineMove s t) (hi : s.Inv) (busy : s.busy = true) (ht : t.st = .ctrl) :
    (t.flagIdx = 8 ∧ t.op.toNat < t.size.toNat) ∨ (t.flagIdx = 0 ∧ t.ctrl = 0 ∧ t.ip = 4 ∧ t.op = 0) := by
  cases h with
  | rest idle => cases idle.symm.trans busy
  | fail | finish | control | backRef | copyMore => cases ht
  | header st =>
    obtain ⟨-, -, -, ctrl, flagIdx, -⟩ := hi.check st
    exact .inr ⟨flagIdx, ctrl, rfl, rfl⟩
  | literal sel => exact .inl (State.tokenEnd_ctrl (State.room_of_literal sel).1 ht)
  | copyLast _ ready => exact .inl (State.tokenEnd_ctrl (State.room_of_copyReady ready).1 ht)

/-- A copy set up or going on is at most 18 bytes long and reaches at most 4096 back. -/
theorem EngineMove.copy_inv {s t : State} (h : EngineMove s t) (hi : s.Inv) (busy : s.busy = true) (ht : t.st = .copy) :
    t.rem.toNat ≤ 18 ∧ t.disp.toNat ≤ 4096 := by
  cases h with
  | rest idle => cases idle.symm.trans busy
  | fail | finish | header | control => cases ht
  | literal | copyLast => exact absurd ht (s.tokenEndSt_ne nofun nofun nofun)
  | backRef =>
    have := s.tokenAt.isLt
    have hrem := s.copySetUp_rem_toNat
    have hdisp := s.copySetUp_disp_toNat
    exact ⟨show s.copySetUp.rem.toNat ≤ 18 by omega, show s.copySetUp.disp.toNat ≤ 4096 by omega⟩
  | copyMore st ready =>
    obtain ⟨-, -, rem_le, disp_le⟩ := hi.copy st
    have hrem : (s.rem - 1).toNat = s.rem.toNat - 1 := s.rem_sub_one ((State.copyReady_iff s).1 ready).1
    exact ⟨by rw [hrem]; omega, disp_le⟩

/-- A run that ends in DONE has an output of the declared size (41_control.md R121). -/
theorem EngineMove.done_inv {s t : State} (h : EngineMove s t) (hi : s.Inv) (busy : s.busy = true) (ht : t.st = .done) :
    t.op = t.size := by
  cases h with
  | rest idle => cases idle.symm.trans busy
  | fail | header | control | backRef | copyMore => cases ht
  | finish _ full => exact BitVec.eq_of_toNat_eq (Nat.le_antisymm hi.op_le_size full)
  | literal sel => exact State.tokenEnd_done (State.room_of_literal sel).1 ht
  | copyLast _ ready => exact State.tokenEnd_done (State.room_of_copyReady ready).1 ht

/-- The engine keeps the invariant. -/
theorem EngineMove.inv {s t : State} (h : EngineMove s t) (hi : s.Inv) : t.Inv := by
  by_cases busy : s.busy = true
  case neg => exact h.eq_of_not_busy (Bool.eq_false_iff.2 busy) ▸ hi
  have steady := h.steady hi.steady
  have streaming := h.streaming hi.steady busy
  obtain ⟨outMem_wf, outMem_cap, out_listed⟩ := h.outMem_inv hi
  have outHost : t.outHost = [] := h.outHost_eq.trans (hi.outHost_busy busy)
  exact
    { cfg_ok := h.cfg_eq ▸ hi.cfg_ok
      inMem_wf := h.inMem_eq ▸ hi.inMem_wf
      outMem_wf, outMem_cap, out_listed
      inMem_cap := h.cfg_eq ▸ h.inMem_eq ▸ hi.inMem_cap
      outHost_rising := by simp [outHost]
      outHost_listed := by simp [outHost]
      outHost_busy := fun _ => outHost
      op_le_size := h.op_le_size hi
      flagIdx_le := h.flagIdx_le hi
      errcode_iff := h.errcode_iff hi busy
      check := fun st => absurd st (h.st_ne_check busy)
      ctrl := fun st => ⟨steady.streaming (.inl st), h.ctrl_inv hi busy st⟩
      token := fun st => ⟨steady.streaming (.inr (.inl st)), steady.token st⟩
      copy := fun st => ⟨steady.streaming (.inr (.inr st)), steady.copy st, h.copy_inv hi busy st⟩
      done := fun st =>
        have stream := streaming (by simp [st])
        ⟨h.done_inv hi busy st, stream.ip_ge, stream.ip_le.trans stream.inLen_le⟩ }

end Sys2Proof.Machine
end

section
/-! SUPPORT. The invariant of 10_state.md R44 under the moves of the host, the stream in DONE and progress, and the
statements of 10_state.md and 60_exceptions.md they settle. -/
namespace Sys2Proof.Machine

/-! ### The host keeps the invariant -/

/-- An idle machine with nothing written meets the invariant (70_reset_and_hazards.md R230). -/
theorem State.inv_of_unwritten {s : State} (ok : s.cfg.ok) (st : s.st = .idle) (inMem : s.inMem = [])
    (outMem : s.outMem = []) (outHost : s.outHost = []) (op : s.op = 0) (flagIdx : s.flagIdx = 0)
    (errcode : s.errcode = .none) : s.Inv where
  cfg_ok := ok
  inMem_wf := by simp [inMem, Memory.wf]
  outMem_wf := by simp [outMem, Memory.wf]
  inMem_cap := by simp [inMem]
  outMem_cap := by simp [outMem]
  outHost_rising := by simp [outHost]
  outHost_listed := by simp [outHost]
  outHost_busy _ := outHost
  op_le_size := by simp [op]
  out_listed := by simp [op]
  flagIdx_le := by simp [flagIdx]
  errcode_iff := by simp [st, errcode]
  check h := by simp [st] at h
  ctrl h := by simp [st] at h
  token h := by simp [st] at h
  copy h := by simp [st] at h
  done h := by simp [st] at h

/-- The invariant does not look at the moves and replies of the host. -/
theorem State.Inv.hostSide {s : State} (hi : s.Inv) (l : List HostMove) (r : List Word) (d : Nat) :
    ({ s with host := l, replies := r, draws := d } : State).Inv :=
  have side (h : s.Streaming) : ({ s with host := l, replies := r, draws := d } : State).Streaming :=
    h.advance rfl rfl rfl le_rfl h.ip_le
  { hi with
    ctrl := fun st => (hi.ctrl st).imp_left side
    token := fun st => (hi.token st).imp_left side
    copy := fun st => (hi.copy st).imp_left side }

/-- START leaves the machine in CHECK with the registers of the run 0. -/
theorem State.Inv.startRun {s : State} (hi : s.Inv) : s.startRun.Inv :=
  { hi with
    outHost_rising := .nil
    outHost_listed := nofun
    outHost_busy := fun _ => rfl
    op_le_size := Nat.zero_le _
    out_listed := nofun
    flagIdx_le := Nat.zero_le _
    errcode_iff := ⟨nofun, fun h => absurd rfl h⟩
    check := fun _ => ⟨rfl, rfl, rfl, rfl, rfl, rfl, rfl⟩
    ctrl := nofun
    token := nofun
    copy := nofun
    done := nofun }

/-- While the engine is not BUSY, the invariant leaves IN_LEN and the memories to the host, but for the form of the
memories and the bytes the output has. -/
theorem State.Inv.atRest {s : State} (hi : s.Inv) (idle : s.busy = false) (n : Word) {inMem outMem : Memory}
    {outHost : List Nat} (inMem_wf : inMem.wf) (outMem_wf : outMem.wf) (inMem_cap : ∀ c ∈ inMem, c.1 < s.cfg.inCap)
    (outMem_cap : ∀ c ∈ outMem, c.1 < s.cfg.outCap) (rising : outHost.Pairwise (· < ·))
    (listed : ∀ a ∈ outHost, outMem.read a ≠ none) (out_listed : ∀ a < s.op.toNat, outMem.read a ≠ none) :
    ({ s with inLen := n, inMem := inMem, outMem := outMem, outHost := outHost } : State).Inv :=
  have not_busy (q : St) (st : s.st = q) (h : s.busy = true) : False := by rw [idle] at h; cases h
  { hi with
    inMem_wf, outMem_wf, inMem_cap, outMem_cap, out_listed
    outHost_rising := rising
    outHost_listed := listed
    outHost_busy := fun busy => (not_busy _ rfl busy).elim
    ctrl := fun st => (not_busy _ st (s.busy_iff.2 (.inr (.inl st)))).elim
    token := fun st => (not_busy _ st (s.busy_iff.2 (.inr (.inr (.inl st))))).elim
    copy := fun st => (not_busy _ st (s.busy_iff.2 (.inr (.inr (.inr st))))).elim }

/-- Every move of the host keeps the invariant. -/
theorem HostEffect.inv {s t : State} {m : HostMove} (h : HostEffect s m t) (hi : s.Inv) : t.Inv := by
  cases h with
  | reset => exact State.inv_of_unwritten hi.cfg_ok rfl rfl rfl rfl rfl rfl rfl
  | reply v => exact hi.hostSide s.host (_ :: s.replies) s.draws
  | replyUnspecified => exact hi.hostSide s.host (_ :: s.replies) (s.draws + 1)
  | ignored => exact hi
  | start => exact hi.startRun
  | inLen w idle =>
    exact hi.atRest idle w hi.inMem_wf hi.outMem_wf hi.inMem_cap hi.outMem_cap hi.outHost_rising hi.outHost_listed
      hi.out_listed
  | writeIn a b idle cap =>
    have inMem_cap (c) (hc : c ∈ s.inMem.write a b) : c.1 < s.cfg.inCap := by
      obtain rfl | hc := Memory.mem_write hc
      · exact cap
      · exact hi.inMem_cap c hc
    exact hi.atRest idle s.inLen (Memory.write_wf hi.inMem_wf a b) hi.outMem_wf inMem_cap hi.outMem_cap
      hi.outHost_rising hi.outHost_listed hi.out_listed
  | writeOut a b idle cap =>
    have outMem_cap (c) (hc : c ∈ s.outMem.write a b) : c.1 < s.cfg.outCap := by
      obtain rfl | hc := Memory.mem_write hc
      · exact cap
      · exact hi.outMem_cap c hc
    have listed (k) (hk : k ∈ addOffset s.outHost a) : (s.outMem.write a b).read k ≠ none := by
      obtain rfl | hk := (mem_addOffset _ _ _).1 hk
      · simp
      · exact Memory.write_read_ne_none (hi.outHost_listed k hk)
    exact hi.atRest idle s.inLen hi.inMem_wf (Memory.write_wf hi.outMem_wf a b) hi.inMem_cap outMem_cap
      (addOffset_rising hi.outHost_rising a) listed fun k hk => Memory.write_read_ne_none (hi.out_listed k hk)
  | pass t move => exact move.inv hi

/-- Every step, of engine or host, keeps the invariant (10_state.md section 5). -/
theorem State.Inv.step {s t : State} (hi : s.Inv) (h : step s = .next t) : t.Inv := by
  obtain move | ⟨m, ms, -, effect⟩ := step_next h
  · exact move.inv hi
  · exact effect.inv (hi.hostSide ms s.replies s.draws)

/-! ### Clause (b) of R44 in DONE -/

/-- The engine enters DONE inside the stream. -/
theorem EngineMove.streaming_of_done {s t : State} (h : EngineMove s t) (hs : s.Steady) (st : s.st ≠ .done)
    (ht : t.st = .done) : t.Streaming := by
  by_cases busy : s.busy = true
  · exact h.streaming hs busy (by simp [ht])
  · exact absurd (h.eq_of_not_busy (Bool.eq_false_iff.2 busy) ▸ ht) st

/-- The host takes the engine into DONE only by letting it step. -/
theorem HostEffect.move_of_done {s t : State} {m : HostMove} (h : HostEffect s m t) (st : s.st ≠ .done)
    (ht : t.st = .done) : EngineMove s t := by
  cases h with
  | pass t move => exact move
  | reset | start => cases ht
  | reply | replyUnspecified | ignored | inLen | writeIn | writeOut => exact absurd ht st

/-- In DONE the stream stays as it was, until the host writes IN_LEN or `IN[0]` (log entry 6). -/
theorem HostEffect.streaming {s t : State} {m : HostMove} (h : HostEffect s m t) (st : s.st = .done) (hs : s.Streaming)
    (notLen : ∀ w, m ≠ .writeReg 3 w) (notTag : ∀ b, m ≠ .writeIn 0 b) (ht : t.st = .done) : t.Streaming := by
  cases h with
  | reset | start => cases ht
  | reply | replyUnspecified | ignored | writeOut => exact hs.advance rfl rfl rfl le_rfl hs.ip_le
  | inLen w => exact absurd rfl (notLen w)
  | writeIn a b =>
    have first : 0 ≠ a := by rintro rfl; exact notTag b rfl
    exact hs.advance rfl rfl (by simp only [State.inByte, Memory.read_write_other _ _ _ _ first]) le_rfl hs.ip_le
  | pass t move => exact move.eq_of_not_busy (s.not_busy_iff.2 (.inr (.inl st))) ▸ hs

/-! ### Progress: no step stops -/

/-- A register write always completes. -/
theorem hostWrite_exists (n : Nat) (w : Word) (s : State) : ∃ t, hostWrite n w s = .next t := by
  by_cases start : n = 0 ∧ w.getLsbD 0 = true
  · obtain ⟨rfl, set⟩ := start
    rw [hostWrite_cmd_set s set]
    cases busy : s.busy with
    | true => exact ⟨_, exec_start_of_busy _ busy⟩
    | false => exact ⟨_, exec_start_of_not_busy _ busy⟩
  by_cases inLen : n = 3 ∧ s.busy = false
  · obtain ⟨rfl, -⟩ := inLen
    exact ⟨_, hostWrite_inLen w s⟩
  · exact ⟨_, hostWrite_no_effect start inLen⟩

/-- A register read completes with a FLAGIDX that is ever produced. -/
theorem hostReadReg_exists {s : State} (n : Nat) (hf : s.flagIdx.toNat ≤ 8) : ∃ t, hostReadReg n s = .next t := by
  cases hu : s.unspecifiedReg n with
  | true => exact ⟨_, hostReadReg_unspecified hu⟩
  | false => exact ⟨_, hostReadReg_specified hu fun _ => hf⟩

/-- While not BUSY, a write to `IN` inside its capacity writes the byte. -/
theorem hostWriteIn_of_idle {s : State} {a : Nat} (b : Byte) (idle : s.busy = false) (cap : a < s.cfg.inCap) :
    hostWriteIn a b s = .next { s with inMem := s.inMem.write a b } := by
  rw [hostWriteIn, idle, if_neg Bool.false_ne_true, if_pos cap]

/-- While not BUSY, a write to `OUT` inside its capacity writes the byte, which the host has then written itself. -/
theorem hostWriteOut_of_idle {s : State} {a : Nat} (b : Byte) (idle : s.busy = false) (cap : a < s.cfg.outCap) :
    hostWriteOut a b s = .next { s with outMem := s.outMem.write a b, outHost := addOffset s.outHost a } := by
  rw [hostWriteOut, idle, if_neg Bool.false_ne_true, if_pos cap]

/-- A read of `IN` inside its capacity replies the byte. -/
theorem hostReadIn_of_lt {s : State} {a : Nat} (cap : a < s.cfg.inCap) :
    hostReadIn a s = .next (s.reply ((s.inByte a).setWidth 32)) :=
  if_pos cap

/-- While not BUSY, a read of `OUT` inside its capacity replies the byte the host sees. -/
theorem hostReadOut_of_idle {s : State} {a : Nat} (idle : s.busy = false) (cap : a < s.cfg.outCap) :
    hostReadOut a s = .next (s.reply ((s.outSeen a).setWidth 32)) := by
  rw [hostReadOut, if_pos cap, idle, if_neg Bool.false_ne_true]

/-- While BUSY, a read of `OUT` inside its capacity replies a free value. -/
theorem hostReadOut_of_busy {s : State} {a : Nat} (busy : s.busy = true) (cap : a < s.cfg.outCap) :
    hostReadOut a s = .next (s.replyUnspecified 0xFF) := by
  rw [hostReadOut, if_pos cap, if_pos busy]

/-- A move the spec gives the host completes under the invariant. -/
theorem hostStep_exists {s : State} {m : HostMove} (hi : s.Inv) (ok : s.allows m = true) :
    ∃ t, hostStep m s = .next t := by
  cases m with
  | reset => exact ⟨_, rfl⟩
  | readReg n => exact hostReadReg_exists n hi.flagIdx_le
  | writeReg n w => exact hostWrite_exists n w s
  | readIn a => exact ⟨_, hostReadIn_of_lt (of_decide_eq_true ok)⟩
  | writeIn a b =>
    simp only [State.allows, Bool.and_eq_true, Bool.not_eq_true', decide_eq_true_eq] at ok
    exact ⟨_, hostWriteIn_of_idle b ok.1 ok.2⟩
  | readOut a =>
    cases busy : s.busy with
    | true => exact ⟨_, hostReadOut_of_busy busy (of_decide_eq_true ok)⟩
    | false => exact ⟨_, hostReadOut_of_idle busy (of_decide_eq_true ok)⟩
  | writeOut a b =>
    simp only [State.allows, Bool.and_eq_true, Bool.not_eq_true', decide_eq_true_eq] at ok
    exact ⟨_, hostWriteOut_of_idle b ok.1 ok.2⟩
  | pass =>
    obtain ⟨t, move⟩ := hi.steady.exists_move
    exact ⟨t, (engineStep_next_iff s t).2 move⟩
  | await => exact hostReadReg_exists 1 hi.flagIdx_le

/-- From a state of the invariant a step completes, with a next move of the host that the spec gives it. -/
theorem State.Inv.exists_step {s : State} (hi : s.Inv) (ok : s.hostAllowed = true) : ∃ t, Machine.step s = .next t := by
  obtain ⟨u, move⟩ := hi.steady.exists_move
  cases hh : s.host with
  | nil => exact ⟨u, (step_next_iff hh).2 move⟩
  | cons m ms =>
    by_cases waits : m = .await ∧ s.busy = true
    · obtain ⟨rfl, busy⟩ := waits
      exact ⟨u, (step_await hh busy).trans ((engineStep_next_iff s u).2 move)⟩
    · rw [step_host hh (by rw [← Bool.not_eq_true]; exact not_and_or.1 waits)]
      simp only [State.hostAllowed, hh] at ok
      exact hostStep_exists (hi.hostSide ms s.replies s.draws) ok

end Sys2Proof.Machine

namespace Sys2Proof.Proofs

open Sys2Proof.Machine

/-- Settles O50: the invariant by the moves of the engine and the effects of the host; the stream in DONE by the same
two lists. -/
theorem everyStepKeepsTheInvariant : Obligations.EveryStepKeepsTheInvariant := by
  unfold Obligations.EveryStepKeepsTheInvariant
  intro s t hi h
  refine ⟨hi.step h, fun st ht => ?enters, fun st stream keeps ht => ?stays⟩
  case enters =>
    obtain move | ⟨m, ms, -, effect⟩ := step_next h
    · exact move.streaming_of_done hi.steady st ht
    · exact (effect.move_of_done st ht).streaming_of_done (hi.hostSide ms s.replies s.draws).steady st ht
  case stays =>
    obtain move | ⟨m, ms, hm, effect⟩ := step_next h
    · exact move.eq_of_not_busy (s.not_busy_iff.2 (.inr (.inl st))) ▸ stream
    · refine effect.streaming st (stream.advance rfl rfl rfl le_rfl stream.ip_le) (fun w => ?_) (fun b => ?_) ht <;>
        rintro rfl <;> simp [State.rewritesInput, hm] at keeps

/-- Settles O51: a steady engine has a move, and each move the spec gives the host completes. -/
theorem noReachableStepStops : Obligations.NoReachableStepStops := by
  unfold Obligations.NoReachableStepStops
  intro s hi ok
  exact hi.exists_step ok

/-- Settles O49: the machine is idle with nothing written. -/
theorem resetSatisfiesTheInvariant : Obligations.ResetSatisfiesTheInvariant :=
  State.inv_of_unwritten (by decide) rfl rfl rfl rfl rfl rfl rfl

end Sys2Proof.Proofs
end

section
/-! SUPPORT. Every run ends: each step of a run in the stream uses up input or room in the output (41_control.md R126);
and the statement of 41_control.md it settles. -/
namespace Sys2Proof.Machine

/-- The bytes of input not yet read and the bytes of output not yet written: what the steps of a run use up. -/
def State.budget (s : State) : Nat := (s.inLen.toNat - s.ip.toNat) + (s.size.toNat - s.op.toNat)

/-- A step inside a run reads a byte or writes one. -/
theorem EngineMove.budget_lt {s t : State} (h : EngineMove s t) (st : s.st ≠ .check) (busy : s.busy = true)
    (goesOn : t.busy = true) : t.budget < s.budget := by
  simp only [State.budget]
  cases h with
  | rest idle => cases idle.symm.trans busy
  | fail | finish => cases goesOn
  | header h => exact absurd h st
  | control _ _ len =>
    have ip := s.ip_add_one len
    simp only [ip]
    omega
  | literal sel len =>
    have ip := s.ip_add_one len
    have op := s.op_add_one (State.room_of_literal sel).1
    simp only [ip, op]
    omega
  | backRef _ len =>
    have ip := s.ip_add_two len
    simp only [ip]
    omega
  | copyLast _ ready | copyMore _ ready =>
    have room := (State.room_of_copyReady ready).1
    have op := s.op_add_one room
    simp only [op]
    omega

/-- No engine step of a run goes to IDLE. -/
theorem EngineMove.st_ne_idle {s t : State} (h : EngineMove s t) (busy : s.busy = true) : t.st ≠ .idle := by
  cases h with
  | rest idle => cases idle.symm.trans busy
  | literal | copyLast => exact s.tokenEndSt_ne nofun nofun nofun
  | fail | finish | header | control | backRef | copyMore => nofun

/-- A run that stops being BUSY is in DONE or ERROR. -/
theorem EngineMove.ends {s t : State} (h : EngineMove s t) (busy : s.busy = true) (stops : t.busy = false) :
    t.st = .done ∨ t.st = .error :=
  (t.not_busy_iff.1 stops).resolve_left (h.st_ne_idle busy)

/-- With the host leaving it alone, a run in the stream ends in as many steps as its budget, and one more. -/
theorem State.Steady.run_ends {n : Nat} {s : State} (hs : s.Steady) (hh : s.host = []) (busy : s.busy = true)
    (st : s.st ≠ .check) (budget : s.budget ≤ n) :
    ∃ k t, k ≤ n + 1 ∧ Host.Core.run core k s = .next t ∧ (t.st = .done ∨ t.st = .error) := by
  induction n generalizing s with
  | zero =>
    obtain ⟨t, move⟩ := hs.exists_move
    cases goesOn : t.busy with
    | true =>
      have := move.budget_lt st busy goesOn
      omega
    | false => exact ⟨1, t, le_rfl, run_succ ((step_next_iff hh).2 move) 0, move.ends busy goesOn⟩
  | succ n ih =>
    obtain ⟨t, move⟩ := hs.exists_move
    have first := (step_next_iff hh).2 move
    cases goesOn : t.busy with
    | true =>
      have less := move.budget_lt st busy goesOn
      obtain ⟨k, u, hk, run, ends⟩ :=
        ih (move.steady hs) (move.host_eq.trans hh) goesOn (move.st_ne_check busy) (by omega)
      exact ⟨k + 1, u, by omega, (run_succ first k).trans run, ends⟩
    | false => exact ⟨1, t, by omega, run_succ first 0, move.ends busy goesOn⟩

/-- The three checks on the header (40_header.md R105). -/
def State.headerAccepted (s : State) : Prop :=
  4 ≤ s.inLen.toNat ∧ s.inLen.toNat ≤ s.cfg.maxInput ∧ s.inByte 0 = formatTag

/-- A CHECK step with a header that is not accepted fails. -/
theorem State.fails_of_rejected {s : State} (st : s.st = .check) (rejected : ¬s.headerAccepted) : ∃ e, Fails s e := by
  by_cases short : s.inLen.toNat < 4
  · exact ⟨_, .tooSmall st short⟩
  have ge := Nat.le_of_not_lt short
  by_cases long : s.cfg.maxInput < s.inLen.toNat
  · exact ⟨_, .tooLarge st ge long⟩
  have le := Nat.le_of_not_lt long
  exact ⟨_, .invalidTag st ge le fun tag => rejected ⟨ge, le, tag⟩⟩

/-- What a START leaves is steady: CHECK asks nothing of the registers. -/
theorem State.steady_of_check {s : State} (st : s.st = .check) : s.Steady where
  streaming := by simp [st]
  token := by simp [st]
  copy := by simp [st]

end Sys2Proof.Machine

namespace Sys2Proof.Proofs

open Sys2Proof.Machine

/-- Settles O58: a failing CHECK is the one step; an accepted header leaves the rest of the input and the declared size
as the budget. -/
theorem everyRunEndsWithinTheBound : Obligations.EveryRunEndsWithinTheBound := by
  unfold Obligations.EveryRunEndsWithinTheBound
  intro s started
  have hh := started.host
  have st := started.check
  by_cases accepted : s.headerAccepted
  case pos =>
    obtain ⟨ge, le, tag⟩ := accepted
    have move := EngineMove.header st ge le tag
    obtain ⟨k, t, hk, run, ends⟩ := (move.steady (State.steady_of_check st)).run_ends hh rfl nofun le_rfl
    refine ⟨k + 1, t, (run_succ ((step_next_iff hh).2 move) k).trans run, ends, .inr ⟨ge, le, tag, ?bound⟩⟩
    rw [← littleEndian24_toNat]
    change k ≤ s.inLen.toNat - 4 + (littleEndian24 (s.inByte 1) (s.inByte 2) (s.inByte 3)).toNat + 1 at hk
    omega
  case neg =>
    obtain ⟨e, fails⟩ := State.fails_of_rejected st accepted
    exact ⟨1, _, run_succ (step_fail hh fails) 0, .inr rfl, .inl le_rfl⟩

end Sys2Proof.Proofs
end

section
/-! SUPPORT. The engine as an implementation of the reference function (41_control.md R127): the output as a list, then
a simulation of the function by the runs of the engine, part by part; and the statement of 41_control.md it settles. -/
namespace Sys2Proof.Machine

/-! ### Input and output as lists -/

/-- The bytes written so far, `OUT[0..op − 1]`. -/
def State.output (s : State) : List Byte := (List.range s.op.toNat).map s.outByte

@[simp] theorem State.output_length (s : State) : s.output.length = s.op.toNat := by
  simp [State.output]

@[simp] theorem State.input_length (s : State) : s.input.length = s.inLen.toNat := by
  simp [State.input]

theorem State.output_getD {s : State} {a : Nat} (h : a < s.op.toNat) : s.output.getD a 0 = s.outByte a := by
  simp [State.output, h]

theorem State.input_getD {s : State} {a : Nat} (h : a < s.inLen.toNat) : s.input.getD a 0 = s.inByte a := by
  simp [State.input, h]

/-- Appending a byte appends it to the output. -/
theorem State.emit_output {s : State} (b : Byte) (room : s.op.toNat < s.size.toNat) :
    (s.emit b).output = s.output ++ [b] := by
  have kept : (List.range s.op.toNat).map (s.emit b).outByte = s.output :=
    List.map_congr_left fun a ha => by rw [State.emit_outByte, if_neg (List.mem_range.1 ha).ne]
  rw [State.output, s.emit_op_toNat b room, List.range_succ, List.map_append, kept, List.map_singleton,
    State.emit_outByte, if_pos rfl]

/-- The bytes copied by the engine are those copied by the reference function (42_backref.md R145). -/
theorem State.copyBytes_output {n : Nat} {s : State} (room : s.op.toNat + n ≤ s.size.toNat)
    (disp_pos : 1 ≤ s.disp.toNat) (disp_le : s.disp.toNat ≤ s.op.toNat) :
    (s.copyBytes n).output = refCopy n s.disp.toNat s.output := by
  induction n generalizing s with
  | zero => rfl
  | succ n ih =>
    have hop := s.emit_op_toNat s.windowRead (by omega)
    have rest := ih (s := s.emit s.windowRead) (by rw [hop, State.emit_size]; omega) disp_pos
      (by rw [hop, State.emit_disp]; omega)
    rw [State.copyBytes, rest, State.emit_output _ (by omega), State.emit_disp, refCopy, State.output_length,
      State.output_getD (by omega), State.windowRead]

/-- The result in DONE is the output. -/
theorem State.result_of_done {s : State} (st : s.st = .done) : s.result = some (.done s.output) := by
  rw [State.result, st]
  rfl

/-! ### Runs that follow the reference function -/

/-- The engine runs from `s` as a part of the reference function says: to ERROR with its failure, or, where the function
goes on, to a state with its cursor and its output of which `goal` holds. -/
inductive State.Follows (s : State) (goal : State → Prop) : RefResult → Prop
  | fails {k : Nat} {t : State} {e : ErrCode} (run : Host.Core.run core k s = .next t)
      (result : t.result = some (.fail e)) : s.Follows goal (.error e)
  | goes {k : Nat} {t : State} (run : Host.Core.run core k s = .next t) (reached : goal t) :
      s.Follows goal (.ok (t.ip.toNat, t.output))

/-- A run that leads to a state which follows the function follows it too. -/
theorem State.Follows.after {s t : State} {goal : State → Prop} {r : RefResult} {k : Nat} (h : t.Follows goal r)
    (first : Host.Core.run core k s = .next t) : s.Follows goal r := by
  cases h with
  | fails run result => exact .fails ((run_add first _).trans run) result
  | goes run reached => exact .goes ((run_add first _).trans run) reached

/-- A weaker goal is reached as well. -/
theorem State.Follows.mono {s : State} {goal goal' : State → Prop} {r : RefResult} (h : s.Follows goal r)
    (weaker : ∀ t, goal t → goal' t) : s.Follows goal' r := by
  cases h with
  | fails run result => exact .fails run result
  | goes run reached => exact .goes run (weaker _ reached)

/-- A step that fails follows a function that fails with the same kind. -/
theorem State.Follows.of_fails {s : State} {goal : State → Prop} {e : ErrCode} (hh : s.host = []) (h : Fails s e) :
    s.Follows goal (.error e) :=
  .fails (run_succ (step_fail hh h) 0) rfl

/-- `t` is later in the same run over the same input. -/
structure State.Continues (s t : State) : Prop where
  cfg : t.cfg = s.cfg
  inLen : t.inLen = s.inLen
  size : t.size = s.size
  inMem : t.inMem = s.inMem
  resets : t.resets = s.resets
  host : t.host = s.host
  ip_le : s.ip.toNat ≤ t.ip.toNat

theorem State.Continues.trans {s t u : State} (h : s.Continues t) (h' : t.Continues u) : s.Continues u where
  cfg := h'.cfg.trans h.cfg
  inLen := h'.inLen.trans h.inLen
  size := h'.size.trans h.size
  inMem := h'.inMem.trans h.inMem
  resets := h'.resets.trans h.resets
  host := h'.host.trans h.host
  ip_le := h.ip_le.trans h'.ip_le

theorem State.Continues.input_eq {s t : State} (h : s.Continues t) : t.input = s.input := by
  have bytes : t.inByte = s.inByte := funext fun a => by rw [State.inByte, State.inByte, h.inMem, h.resets]
  rw [State.input, State.input, h.inLen, bytes]

/-! ### One token -/

/-- `t` is the state at the end of the token that `s` is at (41_control.md R124). -/
structure State.TokenEnd (s t : State) : Prop where
  continues : s.Continues t
  ctrl : t.ctrl = s.ctrl
  flagIdx : t.flagIdx.toNat = s.flagIdx.toNat + 1
  st : t.st = if t.size.toNat ≤ t.op.toNat then .done else if t.flagIdx.toNat = 8 then .ctrl else .token

/-- The after-token update ends the token. -/
theorem State.TokenEnd.of_afterToken {s u : State} (h : s.Continues u.afterToken) (ctrl : u.ctrl = s.ctrl)
    (idx : u.flagIdx = s.flagIdx) (hf : s.flagIdx.toNat ≤ 7) : s.TokenEnd u.afterToken :=
  have ⟨flagIdx, st⟩ := u.afterToken_sequencer (idx ▸ hf)
  ⟨h, ctrl, idx ▸ flagIdx, st⟩

/-- The copy a back-reference sets up ends its token. -/
theorem State.TokenEnd.of_copy {s : State} (n : Nat) (len : s.ip.toNat + 2 ≤ s.inLen.toNat) (hf : s.flagIdx.toNat ≤ 7) :
    s.TokenEnd ({ s.copySetUp.copyBytes n with rem := 0 } : State).afterToken := by
  have ip_le : s.ip.toNat ≤ (s.ip + 2).toNat := by rw [s.ip_add_two len]; omega
  rw [State.copyBytes_frame]
  exact .of_afterToken ⟨rfl, rfl, rfl, rfl, rfl, rfl, ip_le⟩ rfl rfl hf

/-- The literal of the engine is that of the reference function. -/
theorem State.follows_literal {s : State} (hh : s.host = []) (le : s.inLen.toNat ≤ s.cfg.maxInput)
    (sel : s.selected = some .l8) : s.Follows s.TokenEnd (refToken s.input s.size.toNat false s.ip.toNat s.output) := by
  obtain ⟨-, hf, room, -⟩ := s.selected_l8.1 sel
  rw [refToken, if_neg Bool.false_ne_true, State.input_length]
  by_cases short : s.inLen.toNat ≤ s.ip.toNat
  · rw [if_pos short]
    exact .of_fails hh (.noLiteral sel short)
  · have len := Nat.lt_of_not_le short
    have ip := s.ip_add_one len
    have run := run_succ (step_appendLiteral hh sel len le) 0
    rw [if_neg short, State.input_getD len, ← ip, ← State.emit_output (s := s) _ room]
    have ip_le : s.ip.toNat ≤ (s.ip + 1).toNat := by omega
    exact .goes run (.of_afterToken ⟨rfl, rfl, rfl, rfl, rfl, rfl, ip_le⟩ rfl rfl hf)

/-- The back-reference of the engine, its fetch and its copy, is that of the reference function. -/
theorem State.follows_backRef {s : State} (hh : s.host = []) (le : s.inLen.toNat ≤ s.cfg.maxInput)
    (sel : s.selected = some .b16) : s.Follows s.TokenEnd (refToken s.input s.size.toNat true s.ip.toNat s.output) := by
  obtain ⟨-, hf, room, -⟩ := s.selected_b16.1 sel
  simp only [refToken, if_true, State.input_length, State.output_length]
  by_cases short : s.inLen.toNat - s.ip.toNat < 2
  · rw [if_pos short]
    exact .of_fails hh (.noToken sel (by omega))
  have len : s.ip.toNat + 2 ≤ s.inLen.toNat := by omega
  rw [if_neg short, State.input_getD (by omega), State.input_getD (by omega), ← State.tokenAt]
  by_cases far : s.op.toNat < (extract s.tokenAt).2.toNat
  · rw [if_pos far]
    exact .of_fails hh (.farBack sel len (len.trans le) far)
  have near : s.tokenAt.toNat % 4096 + 1 ≤ s.op.toNat := extract_disp_toNat s.tokenAt ▸ Nat.le_of_not_lt far
  obtain ⟨rem_pos, rem_le, disp_pos, disp_le, -⟩ := s.copySetUp.copyReady_iff.1 (State.copySetUp_copyReady sel near)
  have copied : (s.copySetUp.copyBytes s.copySetUp.rem.toNat).output =
      refCopy (min (extract s.tokenAt).1.toNat (s.size.toNat - s.op.toNat)) (extract s.tokenAt).2.toNat s.output := by
    rw [← State.copyLength_toNat]
    exact State.copyBytes_output (by omega) disp_pos disp_le
  have ip : (s.copySetUp.copyBytes s.copySetUp.rem.toNat).ip.toNat = s.ip.toNat + 2 := by
    rw [State.copyBytes_ip]
    exact s.ip_add_two len
  rw [if_neg far, ← ip, ← copied]
  exact (State.Follows.goes (run_backRef hh sel len le near) (State.TokenEnd.of_copy _ len hf) :)

/-- The token of the engine, selected by its flag, is that of the reference function. -/
theorem State.follows_token {s : State} (hh : s.host = []) (le : s.inLen.toNat ≤ s.cfg.maxInput) (st : s.st = .token)
    (hf : s.flagIdx.toNat ≤ 7) (room : s.op.toNat < s.size.toNat) :
    s.Follows s.TokenEnd (refToken s.input s.size.toNat s.tokenFlag s.ip.toNat s.output) := by
  cases flag : s.tokenFlag with
  | false => exact State.follows_literal hh le (s.selected_l8.2 ⟨st, hf, room, flag⟩)
  | true => exact State.follows_backRef hh le (s.selected_b16.2 ⟨st, hf, room, flag⟩)

/-! ### One group of tokens -/

/-- `t` is a state in which the tokens after one control byte are over: the run is complete, or the next control byte is
due. -/
structure State.GroupEnd (s t : State) : Prop where
  continues : s.Continues t
  st : t.st = .done ∧ t.size.toNat ≤ t.op.toNat ∨ t.st = .ctrl

/-- The flags not used yet begin with the flag of the next token (41_control.md R123). -/
theorem State.unusedFlags {s : State} (hf : s.flagIdx.toNat ≤ 7) :
    (flagsOf s.ctrl).drop s.flagIdx.toNat = s.tokenFlag :: (flagsOf s.ctrl).drop (s.flagIdx.toNat + 1) := by
  have hlen : s.flagIdx.toNat < (flagsOf s.ctrl).length := Nat.lt_succ_of_le hf
  rw [List.drop_eq_getElem_cons hlen]
  congr 1
  exact Option.some.inj ((List.getElem?_eq_getElem hlen).symm.trans (flagsOf_getElem? s.ctrl (Nat.lt_succ_of_le hf)))

/-- The tokens of the engine up to the end of the group are those of the reference function. -/
theorem State.follows_tokens {flags : List Bool} {s : State} (hh : s.host = []) (le : s.inLen.toNat ≤ s.cfg.maxInput)
    (room : s.op.toNat < s.size.toNat) (st : s.st = if s.flagIdx.toNat = 8 then .ctrl else .token)
    (hf : s.flagIdx.toNat ≤ 8) (unused : flags = (flagsOf s.ctrl).drop s.flagIdx.toNat) :
    s.Follows s.GroupEnd (refTokens s.input s.size.toNat flags s.ip.toNat s.output) := by
  induction flags generalizing s with
  | nil =>
    have spent : s.flagIdx.toNat = 8 := Nat.le_antisymm hf (List.drop_eq_nil_iff.1 unused.symm)
    exact .goes (run_zero s) ⟨⟨rfl, rfl, rfl, rfl, rfl, rfl, le_rfl⟩, .inr (by rw [st, if_pos spent])⟩
  | cons flag flags ih =>
    have more : s.flagIdx.toNat ≤ 7 := by
      by_contra spent
      rw [List.drop_of_length_le (show (flagsOf s.ctrl).length ≤ _ from Nat.lt_of_not_le spent)] at unused
      cases unused
    rw [State.unusedFlags more, List.cons.injEq] at unused
    obtain ⟨rfl, unused⟩ := unused
    have token := State.follows_token hh le (by rw [st, if_neg (by omega)]) more room
    rw [refTokens]
    generalize refToken s.input s.size.toNat s.tokenFlag s.ip.toNat s.output = r at token
    cases token with
    | fails run result => exact .fails run result
    | @goes k t run token =>
      have size := token.continues.size
      simp only [State.output_length]
      by_cases full : s.size.toNat ≤ t.op.toNat
      · rw [if_pos full]
        rw [← size] at full
        exact .goes run ⟨token.continues, .inl ⟨by rw [token.st, if_pos full], full⟩⟩
      · rw [if_neg full]
        rw [← size] at full
        have st' : t.st = if t.flagIdx.toNat = 8 then .ctrl else .token := by rw [token.st, if_neg full]
        have rest := ih (token.continues.host.trans hh) (by rw [token.continues.inLen, token.continues.cfg]; exact le)
          (Nat.lt_of_not_le full) st' (by rw [token.flagIdx]; omega) (by rw [token.ctrl, token.flagIdx]; exact unused)
        rw [token.continues.input_eq, size] at rest
        exact (rest.mono fun u group => ⟨token.continues.trans group.continues, group.st⟩).after run

/-- The state after the fetch of a control byte (41_control.md R120). -/
def State.fetched (s : State) : State :=
  { s with ctrl := s.inByte s.ip.toNat, ip := s.ip + 1, flagIdx := 0, st := .token }

/-- A control byte and its tokens are those of the reference function. -/
theorem State.follows_control {s : State} (hh : s.host = []) (le : s.inLen.toNat ≤ s.cfg.maxInput) (st : s.st = .ctrl)
    (room : s.op.toNat < s.size.toNat) (len : s.ip.toNat < s.inLen.toNat) :
    s.Follows s.fetched.GroupEnd
      (refTokens s.input s.size.toNat (flagsOf (s.inByte s.ip.toNat)) (s.ip.toNat + 1) s.output) := by
  have fetch : step s = .next s.fetched := (step_next_iff hh).2 (.control st room len (Nat.lt_of_lt_of_le len le))
  rw [← s.ip_add_one len]
  exact (State.follows_tokens (s := s.fetched) hh le room rfl (Nat.zero_le 8) rfl).after (run_succ fetch 0)

/-! ### The whole run -/

/-- The engine from a control byte on is the loop of the reference function. -/
theorem State.follows_groups {fuel : Nat} {s : State} (hh : s.host = []) (le : s.inLen.toNat ≤ s.cfg.maxInput)
    (st : s.st = .ctrl) (enough : s.inLen.toNat - s.ip.toNat < fuel) :
    s.Follows (fun t => t.st = .done) (refGroups s.input s.size.toNat fuel s.ip.toNat s.output) := by
  induction fuel generalizing s with
  | zero => omega
  | succ fuel ih =>
    rw [refGroups, State.output_length, State.input_length]
    by_cases full : s.size.toNat ≤ s.op.toNat
    · rw [if_pos full]
      have finish : step s = .next { s with st := .done } := (step_next_iff hh).2 (.finish st full)
      exact .goes (t := { s with st := .done }) (run_succ finish 0) rfl
    rw [if_neg full]
    have room := Nat.lt_of_not_le full
    by_cases short : s.inLen.toNat ≤ s.ip.toNat
    · rw [if_pos short]
      exact .of_fails hh (.noControl st room short)
    rw [if_neg short]
    have len := Nat.lt_of_not_le short
    have group := State.follows_control hh le st room len
    rw [State.input_getD len]
    generalize refTokens s.input s.size.toNat (flagsOf (s.inByte s.ip.toNat)) (s.ip.toNat + 1) s.output = r at group
    cases group with
    | fails run result => exact .fails run result
    | @goes k t run group =>
      have later := group.continues
      have ip_le : s.ip.toNat + 1 ≤ t.ip.toNat := s.ip_add_one len ▸ later.ip_le
      have inLen : t.inLen = s.inLen := later.inLen
      have cfg : t.cfg = s.cfg := later.cfg
      have size : t.size = s.size := later.size
      have input : t.input = s.input := later.input_eq
      obtain ⟨done, full⟩ | ctrl := group.st
      · obtain ⟨fuel, rfl⟩ : ∃ n, fuel = n + 1 := Nat.exists_eq_add_of_le' (by omega)
        dsimp only
        rw [refGroups, State.output_length, if_pos (size ▸ full)]
        exact .goes run done
      · have rest := ih (later.host.trans hh) (by rw [inLen, cfg]; exact le) ctrl (by rw [inLen]; omega)
        rw [input, size] at rest
        exact rest.after run

/-- The state after an accepted header (40_header.md R104). -/
def State.parsed (s : State) : State :=
  { s with size := littleEndian24 (s.inByte 1) (s.inByte 2) (s.inByte 3), ip := 4, op := 0, st := .ctrl }

/-- The engine from CHECK on is the reference function. -/
theorem State.follows_decode {s : State} (hh : s.host = []) (st : s.st = .check) :
    s.Follows (fun t => t.st = .done) (lz10Decode s.cfg.maxInput s.input) := by
  rw [lz10Decode, State.input_length]
  by_cases short : s.inLen.toNat < 4
  · rw [if_pos short]
    exact .of_fails hh (.tooSmall st short)
  rw [if_neg short]
  have ge := Nat.le_of_not_lt short
  by_cases long : s.cfg.maxInput < s.inLen.toNat
  · rw [if_pos long]
    exact .of_fails hh (.tooLarge st ge long)
  rw [if_neg long]
  have le := Nat.le_of_not_lt long
  have byte (a : Nat) (ha : a < 4) : s.input.getD a 0 = s.inByte a := State.input_getD (by omega)
  rw [byte 0 (by decide), byte 1 (by decide), byte 2 (by decide), byte 3 (by decide)]
  by_cases tag : s.inByte 0 = 0x10
  · rw [if_pos tag]
    have enough : s.inLen.toNat - 4 < s.inLen.toNat + 1 := by omega
    exact (State.follows_groups (s := s.parsed) hh le rfl enough).after (run_succ (step_header hh st ge le tag) 0)
  · rw [if_neg tag]
    exact .of_fails hh (.invalidTag st ge le tag)

/-- A run that follows the function to its end gives its result. -/
theorem State.Follows.result {s : State} {r : RefResult} (h : s.Follows (fun t => t.st = .done) r) :
    ∃ k t, Host.Core.run core k s = .next t ∧ t.result = some (refResult r) ∧
      ∀ i out, r = .ok (i, out) → t.ip.toNat = i := by
  cases h with
  | fails run result => exact ⟨_, _, run, result, nofun⟩
  | goes run done =>
    refine ⟨_, _, run, State.result_of_done done, fun i out h => ?_⟩
    cases h
    rfl

end Sys2Proof.Machine

namespace Sys2Proof.Proofs

open Sys2Proof.Machine

/-- Settles O59, from the run that follows the reference function. -/
theorem runComputesTheReferenceFunction : Obligations.RunComputesTheReferenceFunction := by
  unfold Obligations.RunComputesTheReferenceFunction
  intro s started
  exact (State.follows_decode started.host started.check).result

end Sys2Proof.Proofs
end

section
/-! SUPPORT. What an engine step does not depend on: the moves of the host, and bytes of `IN` at or above `inLen`
(20_memory.md R60, 30_encoding.md R90). -/
namespace Sys2Proof.Machine

section

variable {s : State} {m : Memory} (agree : ∀ a < s.inLen.toNat, m.read a = s.inMem.read a)

include agree

/-- Memories that agree below `inLen` have the same bytes there. -/
theorem State.inByte_of_agree {a : Nat} (ha : a < s.inLen.toNat) :
    ({ s with inMem := m } : State).inByte a = s.inByte a := by
  simp only [State.inByte, agree a ha]

/-- A token inside the input is the same token. -/
theorem State.tokenAt_of_agree (len : s.ip.toNat + 2 ≤ s.inLen.toNat) :
    ({ s with inMem := m } : State).tokenAt = s.tokenAt := by
  rw [State.tokenAt, State.tokenAt, ← State.inByte_of_agree agree (a := s.ip.toNat) (by omega),
    ← State.inByte_of_agree agree (a := s.ip.toNat + 1) (by omega)]

/-- What fails depends on no move of the host, no byte of `OUT` and no byte of `IN` at or above `inLen`. -/
theorem Fails.of_agree {e : ErrCode} (h : Fails s e) (l : List HostMove) (m' : Memory) :
    Fails { s with inMem := m, outMem := m', host := l } e := by
  cases h with
  | tooSmall st len => exact .tooSmall st len
  | tooLarge st ge len => exact .tooLarge st ge len
  | invalidTag st ge le tag =>
    have first := State.inByte_of_agree agree (a := 0) (by omega)
    exact .invalidTag st ge le fun h => tag (first ▸ h)
  | noControl st room len => exact .noControl st room len
  | noLiteral sel len => exact .noLiteral sel len
  | noToken sel len => exact .noToken sel len
  | farBack sel len cap far =>
    rw [← State.tokenAt_of_agree agree len] at far
    exact .farBack sel len cap far

/-- An engine step does the same with other moves of the host and other bytes of `IN` at or above `inLen`. -/
theorem EngineMove.of_agree {t : State} (h : EngineMove s t) (l : List HostMove) :
    EngineMove { s with inMem := m, host := l } { t with inMem := m, host := l } := by
  cases h with
  | rest idle => exact .rest idle
  | fail e h => exact .fail e (h.of_agree agree l s.outMem)
  | finish st full => exact .finish st full
  | header st ge le tag =>
    have byte (a : Nat) (ha : a < 4) := State.inByte_of_agree agree (show a < s.inLen.toNat by omega)
    rw [← byte 0 (by decide)] at tag
    rw [← byte 1 (by decide), ← byte 2 (by decide), ← byte 3 (by decide)]
    exact .header (s := { s with inMem := m, host := l }) st ge le tag
  | control st room len cap =>
    rw [← State.inByte_of_agree agree len]
    exact .control (s := { s with inMem := m, host := l }) st room len cap
  | literal sel len cap =>
    rw [← State.inByte_of_agree agree len]
    exact .literal (s := { s with inMem := m, host := l }) sel len cap
  | backRef sel len cap near =>
    rw [← State.tokenAt_of_agree agree len] at near ⊢
    exact .backRef (s := { s with inMem := m, host := l }) sel len cap near
  | copyLast st ready last => exact .copyLast (s := { s with inMem := m, host := l }) st ready last
  | copyMore st ready more => exact .copyMore (s := { s with inMem := m, host := l }) st ready more

end

/-- An engine step neither looks at the moves of the host nor changes them. -/
theorem EngineMove.withHost {s t : State} (h : EngineMove s t) (l : List HostMove) :
    EngineMove { s with host := l } { t with host := l } := by
  have kept : ({ t with inMem := s.inMem, host := l } : State) = { t with host := l } := by rw [← h.inMem_eq]
  exact kept ▸ h.of_agree (fun _ _ => rfl) l

/-- An engine step does the same with other bytes of `IN` at or above `inLen`. -/
theorem EngineMove.withInput {s t : State} {m : Memory} (h : EngineMove s t)
    (agree : ∀ a < s.inLen.toNat, m.read a = s.inMem.read a) :
    EngineMove { s with inMem := m } { t with inMem := m } := by
  have kept : ({ t with inMem := m, host := s.host } : State) = { t with inMem := m } := by rw [← h.host_eq]
  exact kept ▸ h.of_agree agree s.host

end Sys2Proof.Machine
end

section
/-! SUPPORT. The decode operation of the host (44_host.md R185): loading the buffer, and waiting while the engine runs
as it does when left alone; and the statement of 44_host.md it settles. -/
namespace Sys2Proof.Machine

/-! ### Loading a buffer -/

/-- A loaded buffer is read back at its offsets, and the rest of the memory as before. -/
theorem Memory.read_load (m : Memory) (a : Nat) (bs : List Byte) (k : Nat) :
    (m.load a bs).read k = if a ≤ k ∧ k < a + bs.length then bs[k - a]? else m.read k := by
  induction bs generalizing m a with
  | nil => rw [if_neg (by simp)]; rfl
  | cons b bs ih =>
    rw [Memory.load, ih, List.length_cons]
    by_cases first : k = a
    · subst first
      rw [if_neg (by omega), if_pos (by omega), Memory.read_write_same, Nat.sub_self, List.getElem?_cons_zero]
    rw [Memory.read_write_other _ _ _ _ first]
    by_cases inside : a + 1 ≤ k ∧ k < a + 1 + bs.length
    · rw [if_pos inside, if_pos (by omega), show k - a = k - (a + 1) + 1 by omega, List.getElem?_cons_succ]
    · rw [if_neg inside, if_neg (by omega)]

/-- While the engine is not BUSY, a pending write to `IN` is the next step. -/
theorem step_writeIn {s : State} {a : Nat} {b : Byte} {ms : List HostMove} (h : s.host = .writeIn a b :: ms)
    (idle : s.busy = false) (cap : a < s.cfg.inCap) :
    step s = .next { s with inMem := s.inMem.write a b, host := ms } := by
  rw [step_host h (.inr idle)]
  exact hostWriteIn_of_idle b idle cap

/-- While the engine is not BUSY, the moves that load a buffer load it, one byte a step. -/
theorem run_loadMoves {bs : List Byte} {a : Nat} {s : State} {ms : List HostMove} (h : s.host = loadMoves a bs ++ ms)
    (idle : s.busy = false) (cap : a + bs.length ≤ s.cfg.inCap) :
    Host.Core.run core bs.length s = .next { s with inMem := s.inMem.load a bs, host := ms } := by
  induction bs generalizing a s with
  | nil =>
    obtain rfl : s.host = ms := h
    rfl
  | cons b bs ih =>
    rw [List.length_cons] at cap
    rw [List.length_cons, run_succ (step_writeIn h idle (by omega))]
    exact ih rfl idle (show a + 1 + bs.length ≤ s.cfg.inCap by omega)

/-! ### Waiting for the engine -/

/-- The first step of a run that completes. -/
theorem run_succ_next {s t : State} {k : Nat} (h : Host.Core.run core (k + 1) s = .next t) :
    ∃ u, step s = .next u ∧ Host.Core.run core k u = .next t := by
  cases first : step s with
  | next u => exact ⟨u, rfl, run_succ first k ▸ h⟩
  | fault e =>
    have first : Host.Core.step core s = .fault e := first
    simp [Host.Core.run, first] at h
  | refused r =>
    have first : Host.Core.step core s = .refused r := first
    simp [Host.Core.run, first] at h

/-- Left alone, an engine that is not BUSY stays as it is. -/
theorem run_rest {s : State} (hh : s.host = []) (idle : s.busy = false) (k : Nat) :
    Host.Core.run core k s = .next s := by
  induction k with
  | zero => rfl
  | succ k ih => rw [run_succ (step_rest hh idle), ih]

/-- Once the engine is not BUSY, an `await` reads STATUS and is over. -/
theorem step_awaitOver {s : State} {ms : List HostMove} (h : s.host = .await :: ms) (idle : s.busy = false) :
    step s = .next { s with host := ms, replies := s.statusWord :: s.replies } := by
  rw [step_host h (.inr idle)]
  exact hostReadReg_of_lt _ (by decide)

/-- While the host waits, the engine runs to the state that it reaches when left alone. -/
theorem run_await {k : Nat} {s t : State} (hh : s.host = []) (run : Host.Core.run core k s = .next t)
    (idle : t.busy = false) :
    ∃ j, Host.Core.run core j { s with host := [.await] } =
      .next { t with host := [], replies := t.statusWord :: t.replies } := by
  induction k generalizing s with
  | zero =>
    cases run
    exact ⟨1, run_succ (step_awaitOver (s := { t with host := [.await] }) rfl idle) 0⟩
  | succ k ih =>
    cases busy : s.busy with
    | false =>
      cases (run_rest hh busy (k + 1)).symm.trans run
      exact ⟨1, run_succ (step_awaitOver (s := { t with host := [.await] }) rfl busy) 0⟩
    | true =>
      obtain ⟨u, first, rest⟩ := run_succ_next run
      have move := (step_next_iff hh).1 first
      obtain ⟨j, later⟩ := ih (move.host_eq.trans hh) rest
      have waiting : step { s with host := [.await] } = .next { u with host := [.await] } :=
        (step_await (s := { s with host := [.await] }) rfl busy).trans
          ((engineStep_next_iff _ _).2 (move.withHost [.await]))
      exact ⟨j + 1, (run_succ waiting j).trans later⟩

/-! ### The decode operation -/

/-- There is a result only where the engine is not BUSY. -/
theorem State.not_busy_of_result {s : State} {r : Result} (h : s.result = some r) : s.busy = false := by
  cases busy : s.busy with
  | false => rfl
  | true =>
    obtain st | st | st | st := s.busy_iff.1 busy <;> simp [State.result, st] at h

/-- The state in which the engine runs after the buffer is loaded and started, the host leaving it alone. -/
def State.loadedRun (s : State) (inp : List Byte) : State :=
  ({ s with inMem := s.inMem.load 0 inp, inLen := BitVec.ofNat 32 inp.length, host := [] } : State).startRun

/-- The input of that run is the buffer. -/
theorem State.loadedRun_input {s : State} {inp : List Byte} (fits : inp.length < 2 ^ 32) :
    (s.loadedRun inp).input = inp := by
  have len : (s.loadedRun inp).inLen.toNat = inp.length := by
    show (BitVec.ofNat 32 inp.length).toNat = inp.length
    rw [BitVec.toNat_ofNat, Nat.mod_eq_of_lt fits]
  apply List.ext_getElem (by rw [State.input_length, len])
  intro k hk hk'
  have byte : (s.loadedRun inp).inMem.read k = some inp[k] := by
    rw [← List.getElem?_eq_getElem hk']
    exact (Memory.read_load _ _ _ _).trans (if_pos (by omega))
  simp [State.input, State.inByte, byte]

/-- While the engine is not BUSY, a write of IN_LEN and a write of START begin a run over an input of that length. -/
theorem run_startMoves {s : State} {w : Word} {ms : List HostMove} (h : s.host = .writeReg 3 w :: .writeReg 0 1 :: ms)
    (idle : s.busy = false) :
    Host.Core.run core 2 s = .next ({ s with inLen := w, host := ms } : State).startRun := by
  have length : step s = .next { s with inLen := w, host := .writeReg 0 1 :: ms } := by
    rw [step_writeReg h, hostWrite_inLen, if_neg]
    exact Bool.eq_false_iff.1 idle
  have start : step { s with inLen := w, host := .writeReg 0 1 :: ms } =
      .next ({ s with inLen := w, host := ms } : State).startRun :=
    (step_writeReg rfl).trans ((hostWrite_cmd_set _ rfl).trans (exec_start_of_not_busy _ idle))
  exact (run_succ length 1).trans (run_succ start 0)

/-- The moves that load a buffer, write its length and write START leave the host waiting for the run over it. -/
theorem run_decodeMoves {s : State} {inp : List Byte} (idle : s.busy = false) (cap : inp.length ≤ s.cfg.inCap)
    (h : s.host = decodeMoves inp) :
    Host.Core.run core (inp.length + 2) s = .next { s.loadedRun inp with host := [.await] } := by
  have loaded := run_loadMoves h idle (by omega)
  have started := run_startMoves (s := { s with
    inMem := s.inMem.load 0 inp
    host := [.writeReg 3 (BitVec.ofNat 32 inp.length), .writeReg 0 1, .await] }) rfl idle
  exact (run_add loaded 2).trans started

end Sys2Proof.Machine

namespace Sys2Proof.Proofs

open Sys2Proof.Machine

/-- Settles O60: the moves start the run over the buffer, and while the host waits it follows the reference function. -/
theorem hostDecodeGivesTheReferenceResult : Obligations.HostDecodeGivesTheReferenceResult := by
  unfold Obligations.HostDecodeGivesTheReferenceResult
  rintro s inp idle ⟨-, max_lt⟩ fits h
  have started := run_decodeMoves idle fits h
  have follows := State.follows_decode (s := s.loadedRun inp) rfl rfl
  rw [State.loadedRun_input (by omega)] at follows
  obtain ⟨k, t, run, result, -⟩ := follows.result
  obtain ⟨j, waited⟩ := run_await rfl run (State.not_busy_of_result result)
  exact ⟨_, _, (run_add started j).trans waited, rfl, result⟩

end Sys2Proof.Proofs
end

section
/-! SUPPORT. The elements of the stream and START as meanings: where each completes, where it fails, and its frame
(40_header.md to 44_host.md); how a step comes to run one; and the statements they settle. -/
namespace Sys2Proof.Machine

/-! ### Where the elements complete -/

/-- HDR with the tag completes where the length is accepted (40_header.md R104). -/
theorem exec_hdr_of_tag (size : BitVec 24) {s : State} (st : s.st = .check) (ge : 4 ≤ s.inLen.toNat)
    (le : s.inLen.toNat ≤ s.cfg.maxInput) :
    exec (.hdr formatTag size) s = .next { s with size := size, ip := 4, op := 0, st := .ctrl } := by
  have sel := s.selected_h32.2 st
  have hb := s.beforeFetch_h32_none.2 ⟨ge, le⟩
  simp [exec, execHdr, whenSelected_pos sel, hb]

/-- CTRL completes where the output is short and a byte is left (41_control.md R120). -/
theorem exec_ctrl_of_room (flags : Byte) {s : State} (st : s.st = .ctrl) (room : s.op.toNat < s.size.toNat)
    (len : s.ip.toNat < s.inLen.toNat) :
    exec (.ctrl flags) s = .next { s with ctrl := flags, ip := s.ip + 1, flagIdx := 0, st := .token } := by
  have sel := s.selected_c8.2 st
  have hb := s.beforeFetch_c8_none.2 ⟨room, len⟩
  simp [exec, execCtrl, whenSelected_pos sel, hb]

/-- LIT completes where it is selected and a byte is left (43_literal.md R170). -/
theorem exec_lit_of_selected (b : Byte) {s : State} (sel : s.selected = some .l8) (len : s.ip.toNat < s.inLen.toNat) :
    exec (.lit b) s = .next (({ s with ip := s.ip + 1 } : State).emit b).afterToken := by
  have hb := s.beforeFetch_l8_none.2 len
  simp [exec, execLit, whenSelected_pos sel, hb]

/-- BREF completes where it is selected, two bytes are left and it reaches no further back than the output
(42_backref.md R141). -/
theorem exec_bref_of_near (count : BitVec 5) {disp : BitVec 13} {s : State} (sel : s.selected = some .b16)
    (len : s.ip.toNat + 2 ≤ s.inLen.toNat) (near : disp.toNat ≤ s.op.toNat) :
    exec (.bref count disp) s =
      .next { s with ip := s.ip + 2, disp := disp, rem := s.copyLength count, st := .copy } := by
  have hb := s.beforeFetch_b16_none.2 len
  simp [exec, execBref, whenSelected_pos sel, hb, Nat.not_lt.2 near]

/-! ### Where they fail -/

/-- What comes before the fetch of an element comes before its meaning. -/
theorem exec_of_before {i : Instr} {s t : State} (sel : s.selected = some i.format)
    (hb : s.beforeFetch i.format = some t) : exec i s = .next t := by
  cases i <;> simp only [Instr.format] at sel hb
  case hdr => simp [exec, execHdr, whenSelected_pos sel, hb]
  case ctrl => simp [exec, execCtrl, whenSelected_pos sel, hb]
  case lit => simp [exec, execLit, whenSelected_pos sel, hb]
  case bref => simp [exec, execBref, whenSelected_pos sel, hb]
  case start => exact absurd sel s.selected_reg32

/-- CTRL fails where the output is short and no byte is left. -/
theorem State.beforeFetch_c8_short {s : State} (room : s.op.toNat < s.size.toNat) (short : s.inLen.toNat ≤ s.ip.toNat) :
    s.beforeFetch .c8 = some (s.raise .truncatedInput) := by
  have full : ¬s.complete = true := by rw [s.complete_iff]; omega
  have left : ¬s.bytesLeft 1 = true := by rw [s.bytesLeft_iff]; omega
  rw [State.beforeFetch, if_neg full, if_neg left]

/-- LIT fails where no byte is left. -/
theorem State.beforeFetch_l8_short {s : State} (short : s.inLen.toNat ≤ s.ip.toNat) :
    s.beforeFetch .l8 = some (s.raise .truncatedInput) := by
  have left : ¬s.bytesLeft 1 = true := by rw [s.bytesLeft_iff]; omega
  rw [State.beforeFetch, if_neg left]

/-- BREF fails where less than two bytes are left. -/
theorem State.beforeFetch_b16_short {s : State} (short : s.inLen.toNat < s.ip.toNat + 2) :
    s.beforeFetch .b16 = some (s.raise .truncatedInput) := by
  have left : ¬s.bytesLeft 2 = true := by rw [s.bytesLeft_iff]; omega
  rw [State.beforeFetch, if_neg left]

/-- BREF fails where it reaches further back than the output (42_backref.md R144). -/
theorem exec_bref_of_far (count : BitVec 5) {disp : BitVec 13} {s : State} (sel : s.selected = some .b16)
    (len : s.ip.toNat + 2 ≤ s.inLen.toNat) (far : s.op.toNat < disp.toNat) :
    exec (.bref count disp) s = .next (s.raise .invalidBackReference) := by
  have hb := s.beforeFetch_b16_none.2 len
  simp [exec, execBref, whenSelected_pos sel, hb, far]

/-! ### Frames -/

/-- What comes before a fetch writes `st` and `errcode` alone, and no byte of either memory. -/
theorem State.beforeFetch_frame {f : Format} {s t : State} (h : s.beforeFetch f = some t) :
    t = { s with st := t.st, errcode := t.errcode } ∧ ∀ a, t.inByte a = s.inByte a ∧ t.outByte a = s.outByte a := by
  obtain ⟨-, -, rfl⟩ | ⟨-, -, -, rfl⟩ | ⟨-, -, rfl⟩ | ⟨-, -, -, rfl⟩ | ⟨-, -, rfl⟩ | ⟨-, -, rfl⟩ :=
    State.beforeFetch_some h
  all_goals exact ⟨rfl, fun a => ⟨rfl, rfl⟩⟩

/-- The frame of HDR (40_header.md R100). -/
theorem execHdr_frame {tag : Byte} {size : BitVec 24} {s t : State} (h : execHdr tag size s = .next t) :
    t = { s with size := t.size, ip := t.ip, op := t.op, st := t.st, errcode := t.errcode } ∧
      ∀ a, t.inByte a = s.inByte a ∧ t.outByte a = s.outByte a := by
  obtain ⟨-, hb | ⟨-, -, rfl⟩ | ⟨-, -, rfl⟩⟩ := execHdr_next h
  · obtain ⟨frame, bytes⟩ := State.beforeFetch_frame hb
    exact ⟨by rw [frame], bytes⟩
  · exact ⟨rfl, fun a => ⟨rfl, rfl⟩⟩
  · exact ⟨rfl, fun a => ⟨rfl, rfl⟩⟩

/-- The frame of CTRL (41_control.md R120). -/
theorem execCtrl_frame {flags : Byte} {s t : State} (h : execCtrl flags s = .next t) :
    t = { s with ctrl := t.ctrl, ip := t.ip, flagIdx := t.flagIdx, st := t.st, errcode := t.errcode } ∧
      ∀ a, t.inByte a = s.inByte a ∧ t.outByte a = s.outByte a := by
  obtain ⟨-, hb | ⟨-, rfl⟩⟩ := execCtrl_next h
  · obtain ⟨frame, bytes⟩ := State.beforeFetch_frame hb
    exact ⟨by rw [frame], bytes⟩
  · exact ⟨rfl, fun a => ⟨rfl, rfl⟩⟩

/-- The frame of BREF (42_backref.md R141). -/
theorem execBref_frame {count : BitVec 5} {disp : BitVec 13} {s t : State} (h : execBref count disp s = .next t) :
    t = { s with ip := t.ip, disp := t.disp, rem := t.rem, st := t.st, errcode := t.errcode } ∧
      ∀ a, t.inByte a = s.inByte a ∧ t.outByte a = s.outByte a := by
  obtain ⟨-, hb | ⟨-, -, rfl⟩ | ⟨-, -, rfl⟩⟩ := execBref_next h
  · obtain ⟨frame, bytes⟩ := State.beforeFetch_frame hb
    exact ⟨by rw [frame], bytes⟩
  · exact ⟨rfl, fun a => ⟨rfl, rfl⟩⟩
  · exact ⟨rfl, fun a => ⟨rfl, rfl⟩⟩

/-! ### A step that runs an element -/

/-- A pending `pass` gives the step to the engine. -/
theorem step_pass {s : State} {ms : List HostMove} (h : s.host = .pass :: ms) :
    step s = engineStep { s with host := ms } :=
  step_host h (.inl nofun)

/-- Fetching does not look at the moves of the host. -/
theorem State.fetchBytes_host (s : State) (f : Format) (l : List HostMove) :
    ({ s with host := l } : State).fetchBytes f = s.fetchBytes f := by
  cases f <;> (simp only [State.fetchBytes, State.readIn_eq]; rfl)

/-- An engine step is the meaning of the instruction its bytes decode to. -/
theorem engineStep_of_decode {s : State} {f : Format} {bytes rest : List Byte} {i : Instr} (sel : s.selected = some f)
    (hb : s.beforeFetch f = none) (fetch : s.fetchBytes f = some bytes) (dec : decode f bytes = .ok (i, rest)) :
    engineStep s = exec i s := by
  rw [engineStep_busy (State.engine_selects sel), elementStep_run sel hb]
  simp [runElement, fetch, dec]

end Sys2Proof.Machine

namespace Sys2Proof.Proofs

open Sys2Proof.Machine

/-- Settles O13, by the meaning of an accepted header. -/
theorem hdrCompletes : Obligations.HdrCompletes := by
  unfold Obligations.HdrCompletes
  intro size s st ge le
  exact exec_hdr_of_tag size st ge le

/-- Settles O15, by the meaning of a control byte where one is due and left. -/
theorem ctrlCompletes : Obligations.CtrlCompletes := by
  unfold Obligations.CtrlCompletes
  intro flags s st room len
  exact exec_ctrl_of_room flags st room len

/-- Settles O20, with the writes of a literal as one update. -/
theorem litCompletes : Obligations.LitCompletes := by
  unfold Obligations.LitCompletes
  intro b s st hf room flag len
  rw [exec_lit_of_selected b (s.selected_l8.2 ⟨st, hf, room, flag⟩) len, s.literal_eq b room]
  rfl

/-- Settles O21: a literal fails through `raise`, or appends its byte at `op`. -/
theorem litFrame : Obligations.LitFrame := by
  unfold Obligations.LitFrame
  intro b s t h
  by_cases ht : t.st = .error
  case pos =>
    obtain ⟨-, hb | ⟨-, rfl⟩⟩ := execLit_next h
    · obtain ⟨frame, bytes⟩ := State.beforeFetch_frame hb
      exact ⟨by rw [frame], fun a => (bytes a).1, fun a _ => (bytes a).2, fun _ a => (bytes a).2⟩
    · exact absurd ht (State.afterToken_st_ne _).2
  case neg =>
    obtain ⟨-, rfl⟩ := execLit_completes h ht
    exact ⟨rfl, fun a => rfl, fun a ha => by rw [State.literal_outByte, if_neg ha], fun st => absurd st ht⟩

/-- Settles O23: the copy's length fits its register. -/
theorem brefCompletes : Obligations.BrefCompletes := by
  unfold Obligations.BrefCompletes
  intro count disp s st hf room flag len near
  exact ⟨_, s.copyLength_toNat count,
    exec_bref_of_near count (s.selected_b16.2 ⟨st, hf, room, flag⟩) (by omega) near⟩

/-- Settles O29, by the frame of each element. -/
theorem nonStoringElementsFrame : Obligations.NonStoringElementsFrame := by
  unfold Obligations.NonStoringElementsFrame
  exact ⟨fun _ _ _ _ h => execHdr_frame h, fun _ _ _ h => execCtrl_frame h, fun _ _ _ _ h => execBref_frame h⟩

/-- Settles O30: truncation is found before the fetch, so no operand is looked at. -/
theorem elementsTrapOnTruncation : Obligations.ElementsTrapOnTruncation := by
  unfold Obligations.ElementsTrapOnTruncation
  refine ⟨fun flags s st room short => ?ctrl, fun b s st hf room flag short => ?lit,
    fun count disp s st hf room flag short => ?bref⟩
  case ctrl => exact exec_of_before (i := .ctrl flags) (s.selected_c8.2 st) (State.beforeFetch_c8_short room short)
  case lit =>
    exact exec_of_before (i := .lit b) (s.selected_l8.2 ⟨st, hf, room, flag⟩) (State.beforeFetch_l8_short short)
  case bref =>
    exact exec_of_before (i := .bref count disp) (s.selected_b16.2 ⟨st, hf, room, flag⟩)
      (State.beforeFetch_b16_short short)

/-- Settles O32: in the three states the engine is not BUSY. -/
theorem startCompletes : Obligations.StartCompletes := by
  unfold Obligations.StartCompletes
  intro x s st
  exact exec_start_of_not_busy x (s.not_busy_iff.2 st)

/-- Settles O33: START is ignored while BUSY, and else writes the registers of the run. -/
theorem startFrame : Obligations.StartFrame := by
  unfold Obligations.StartFrame
  intro x s t h
  obtain ⟨-, rfl⟩ | ⟨idle, rfl⟩ := execStart_next (x := x) h
  · exact ⟨rfl, rfl, rfl, rfl, rfl, rfl, fun a => ⟨rfl, rfl⟩, fun _ => rfl⟩
  · exact ⟨rfl, rfl, rfl, rfl, rfl, rfl, fun a => ⟨rfl, rfl⟩, fun busy => by rw [idle] at busy; cases busy⟩

/-- Settles O48: what the engine's step is, given to the engine by no move, by an `await` or by a `pass`. -/
theorem stepRunsTheDecodedInstruction : Obligations.StepRunsTheDecodedInstruction := by
  unfold Obligations.StepRunsTheDecodedInstruction
  refine ⟨fun s f bytes rest i sel hb fetch dec => ?element, fun s t f sel hb => ?before, fun s st => ?copy,
    fun s w ms rest i h dec => ?command⟩
  case element =>
    have run := engineStep_of_decode sel hb fetch dec
    refine ⟨fun hh => (step_engine hh).trans run, fun ms hh => (step_await hh (State.busy_of_selected sel)).trans run,
      fun ms hh => (step_pass hh).trans ?_⟩
    exact engineStep_of_decode sel (by rw [State.beforeFetch_host, hb]; rfl) ((s.fetchBytes_host f ms).trans fetch) dec
  case before =>
    have engine {s t : State} (sel : s.selected = some f) (hb : s.beforeFetch f = some t) : engineStep s = .next t :=
      (engineStep_busy (State.engine_selects sel)).trans (elementStep_before sel hb)
    refine ⟨fun hh => (step_engine hh).trans (engine sel hb),
      fun ms hh => (step_await hh (State.busy_of_selected sel)).trans (engine sel hb),
      fun ms hh => (step_pass hh).trans (engine sel ?_)⟩
    rw [State.beforeFetch_host, hb]
    rfl
  case copy =>
    have busy : s.busy = true := s.busy_iff.2 (.inr (.inr (.inr st)))
    exact ⟨fun hh => (step_engine hh).trans (engineStep_copy st),
      fun ms hh => (step_await hh busy).trans (engineStep_copy st),
      fun ms hh => (step_pass hh).trans (engineStep_copy st)⟩
  case command =>
    rw [step_writeReg h, hostWrite, if_pos rfl, hostWriteCmd, dec]

end Sys2Proof.Proofs
end

section
/-! SUPPORT. What an engine step keeps, where it moves the cursor and the output, and where it stops: facts about one
step of a run (10_state.md section 2, 20_memory.md section 1, 60_exceptions.md section 1), and the statements they
settle. -/
namespace Sys2Proof.Machine

/-! ### Input and parameters -/

/-- The engine changes no byte of `IN`. -/
theorem EngineMove.inByte_eq {s t : State} (h : EngineMove s t) (a : Nat) : t.inByte a = s.inByte a := by
  rw [State.inByte, State.inByte, h.inMem_eq, h.resets_eq]

/-- No move of the host changes the parameters. -/
theorem HostEffect.cfg_eq {s t : State} {m : HostMove} (h : HostEffect s m t) : t.cfg = s.cfg := by
  cases h with
  | pass t move => exact move.cfg_eq
  | reset | reply | replyUnspecified | ignored | start | inLen | writeIn | writeOut => rfl

/-! ### The cursor and the output -/

/-- In CHECK the cursor, the output length and the declared size are 0. -/
theorem State.Inv.zero_of_check {s : State} (hi : s.Inv) (st : s.st = .check) : s.ip = 0 ∧ s.op = 0 ∧ s.size = 0 :=
  have ⟨size, ip, op, _⟩ := hi.check st
  ⟨ip, op, size⟩

/-- Inside a token the output is short of the declared size. -/
theorem State.Steady.room {s : State} (hs : s.Steady) (st : s.st = .token ∨ s.st = .copy) :
    s.op.toNat < s.size.toNat :=
  st.elim (fun st => (hs.token st).2) fun st => (State.room_of_copyReady (hs.copy st)).1

/-- A completed token with the output at the declared size ends the run. -/
theorem State.tokenEndSt_full {s : State} (room : s.op.toNat < s.size.toNat) (full : s.op + 1 = s.size) :
    s.tokenEndSt = .done := by
  rw [State.tokenEndSt, if_pos]
  rw [← full, s.op_add_one room]

/-- A step of a token that brings the output to the declared size ends the run (41_control.md R121). -/
theorem EngineMove.done_of_full {s t : State} (h : EngineMove s t) (hs : s.Steady) (st : s.st = .token ∨ s.st = .copy)
    (full : t.op = t.size) : t.st = .done := by
  have room := hs.room st
  have short : s.op ≠ s.size := fun h => room.ne (congrArg BitVec.toNat h)
  cases h with
  | rest | fail | control | backRef => exact absurd full short
  | finish => rfl
  | header h => rw [h] at st; simp at st
  | literal | copyLast => exact State.tokenEndSt_full room full
  | copyMore _ ready more =>
    obtain ⟨-, rem_le, -⟩ := s.copyReady_iff.1 ready
    have := congrArg BitVec.toNat full
    simp only [s.op_add_one room] at this
    omega

/-- How far an engine step moves the cursor, by the states it goes from and to (10_state.md R23). -/
def State.cursorAdvance (s t : State) : Nat :=
  if t.st = .error then 0
  else if s.st = .check then 4
  else if s.st = .ctrl ∧ t.st = .token then 1
  else if s.st = .token ∧ s.tokenFlag = false then 1
  else if s.st = .token then 2
  else 0

/-- The cursor moves as the rule says. -/
theorem EngineMove.ip_eq {s t : State} (h : EngineMove s t) (hi : s.Inv) :
    t.ip.toNat = s.ip.toNat + s.cursorAdvance t := by
  rw [State.cursorAdvance]
  cases h with
  | rest idle => obtain st | st | st := s.not_busy_iff.1 idle <;> simp [st]
  | fail => simp
  | finish st => simp [st]
  | header st =>
    obtain ⟨ip, -⟩ := hi.zero_of_check st
    simp [st, ip]
  | control st _ len => simpa [st] using s.ip_add_one len
  | literal sel len =>
    obtain ⟨st, -, -, flag⟩ := s.selected_l8.1 sel
    simpa [st, flag, s.tokenEndSt_ne_error] using s.ip_add_one len
  | backRef sel len =>
    obtain ⟨st, -, -, flag⟩ := s.selected_b16.1 sel
    simpa [st, flag] using s.ip_add_two len
  | copyLast st | copyMore st => simp [st]

/-! ### Where a failing step stands -/

/-- At a control byte that is not there the cursor is at the end of the input. -/
theorem Fails.ip_of_ctrl {s : State} {e : ErrCode} (h : Fails s e) (hs : s.Steady) (st : s.st = .ctrl) :
    s.ip = s.inLen := by
  have le := (hs.streaming (.inl st)).ip_le
  cases h with
  | noControl _ _ len => exact BitVec.eq_of_toNat_eq (Nat.le_antisymm le len)
  | tooSmall h | tooLarge h | invalidTag h => rw [h] at st; cases st
  | noLiteral sel | noToken sel | farBack sel => simp [State.selected, st] at sel

/-- At a literal that is not there the cursor is at the end of the input. -/
theorem Fails.ip_of_literal {s : State} {e : ErrCode} (h : Fails s e) (hs : s.Steady) (st : s.st = .token)
    (flag : s.tokenFlag = false) : s.ip = s.inLen := by
  have le := (hs.streaming (.inr (.inl st))).ip_le
  cases h with
  | noLiteral _ len => exact BitVec.eq_of_toNat_eq (Nat.le_antisymm le len)
  | tooSmall h | tooLarge h | invalidTag h | noControl h => rw [h] at st; cases st
  | noToken sel | farBack sel =>
    obtain ⟨-, -, -, flag'⟩ := s.selected_b16.1 sel
    rw [flag] at flag'; cases flag'

/-- At a back-reference that is cut off the cursor is at the end of the input or one byte before it. -/
theorem Fails.ip_of_backRef {s : State} (h : Fails s .truncatedInput) (hs : s.Steady) (st : s.st = .token)
    (flag : s.tokenFlag = true) : s.ip.toNat = s.inLen.toNat ∨ s.ip.toNat + 1 = s.inLen.toNat := by
  have le := (hs.streaming (.inr (.inl st))).ip_le
  cases h with
  | noToken _ len => omega
  | noControl h => rw [h] at st; cases st
  | noLiteral sel =>
    obtain ⟨-, -, -, flag'⟩ := s.selected_l8.1 sel
    rw [flag] at flag'; cases flag'

/-- InvalidBackReference is about the token at the cursor. -/
theorem Fails.far {s : State} (h : Fails s .invalidBackReference) : s.op.toNat < (extract s.tokenAt).2.toNat := by
  cases h with
  | farBack _ _ _ far => exact far

/-! ### Stopping with other bytes of `IN` -/

/-- What comes before the fetch does not look at the bytes of `IN`. -/
theorem State.beforeFetch_inMem (s : State) (f : Format) (m : Memory) :
    ({ s with inMem := m } : State).beforeFetch f = none ↔ s.beforeFetch f = none := by
  cases f with
  | h32 => rw [State.beforeFetch_h32_none, State.beforeFetch_h32_none]
  | c8 => rw [State.beforeFetch_c8_none, State.beforeFetch_c8_none]
  | l8 => rw [State.beforeFetch_l8_none, State.beforeFetch_l8_none]
  | b16 => rw [State.beforeFetch_b16_none, State.beforeFetch_b16_none]
  | reg32 => exact Iff.rfl

/-- Where an engine step stops does not depend on the bytes of `IN`. -/
theorem EngineStop.withInput {s : State} {o : Out} (h : EngineStop s o) (m : Memory) :
    EngineStop { s with inMem := m } o := by
  cases h with
  | unselected st sel => exact .unselected st sel
  | unready st ready => exact .unready st ready
  | outside f sel hb cap => exact .outside (s := { s with inMem := m }) f sel ((s.beforeFetch_inMem f m).2 hb) cap

/-! ### Bytes of `OUT` at or above `op` -/

/-- Memories that agree below an offset agree up to it once a byte is written there to both. -/
theorem Memory.agree_write {m m' : Memory} {k : Nat} (h : ∀ a < k, m.read a = m'.read a) (b : Byte) :
    ∀ a < k + 1, (m.write k b).read a = (m'.write k b).read a := by
  intro a ha
  rw [Memory.read_write, Memory.read_write]
  split
  · rfl
  · exact h a (by omega)

section

variable {s : State} {m : Memory} (agree : ∀ a < s.op.toNat, m.read a = s.outMem.read a)

include agree

/-- The window of a copy in progress has the same byte. -/
theorem State.windowRead_of_agree (ready : s.copyReady = true) :
    ({ s with outMem := m } : State).windowRead = s.windowRead := by
  obtain ⟨-, -, disp_pos, disp_le, -⟩ := s.copyReady_iff.1 ready
  simp only [State.windowRead, State.outByte, agree (s.op.toNat - s.disp.toNat) (by omega)]

/-- An engine step does the same with other bytes of `OUT` at or above `op`, and the memories agree below the new
`op`. -/
theorem EngineMove.withOutput {t : State} (h : EngineMove s t) :
    ∃ m', EngineMove { s with outMem := m } { t with outMem := m' } ∧
      ∀ a < t.op.toNat, m'.read a = t.outMem.read a := by
  cases h with
  | rest idle => exact ⟨m, .rest idle, agree⟩
  | fail e h => exact ⟨m, .fail e (h.of_agree (fun _ _ => rfl) s.host m), agree⟩
  | finish st full => exact ⟨m, .finish st full, agree⟩
  | header st ge le tag => exact ⟨m, .header (s := { s with outMem := m }) st ge le tag, nofun⟩
  | control st room len cap => exact ⟨m, .control (s := { s with outMem := m }) st room len cap, agree⟩
  | literal sel len cap =>
    have room := (State.room_of_literal sel).1
    refine ⟨_, .literal (s := { s with outMem := m }) sel len cap, ?_⟩
    rw [s.op_add_one room]
    exact Memory.agree_write agree _
  | backRef sel len cap near => exact ⟨m, .backRef (s := { s with outMem := m }) sel len cap near, agree⟩
  | copyLast st ready last =>
    have room := (State.room_of_copyReady ready).1
    rw [← State.windowRead_of_agree agree ready]
    refine ⟨_, .copyLast (s := { s with outMem := m }) st ready last, ?_⟩
    rw [s.op_add_one room]
    exact Memory.agree_write agree _
  | copyMore st ready more =>
    have room := (State.room_of_copyReady ready).1
    rw [← State.windowRead_of_agree agree ready]
    refine ⟨_, .copyMore (s := { s with outMem := m }) st ready more, ?_⟩
    rw [s.op_add_one room]
    exact Memory.agree_write agree _

end

end Sys2Proof.Machine

namespace Sys2Proof.Proofs

open Sys2Proof.Machine

/-- Settles O18: the invariant of the next state bounds the output, and a token's step with the output at `size` is its
last. -/
theorem runEndsExactlyAtSize : Obligations.RunEndsExactlyAtSize := by
  unfold Obligations.RunEndsExactlyAtSize
  intro s t hi hh h
  have next := hi.step h
  exact ⟨next.op_le_size, fun st => (next.done st).1, ((step_next_iff hh).1 h).done_of_full hi.steady⟩

/-- Settles O24: the failure of BREF, and the displacement that a set-up or going copy has. -/
theorem farDisplacementFails : Obligations.FarDisplacementFails := by
  unfold Obligations.FarDisplacementFails
  refine ⟨fun count disp s st hf room flag len far => ?fails, fun s t hh st h ht => ?inside⟩
  case fails => exact exec_bref_of_far count (s.selected_b16.2 ⟨st, hf, room, flag⟩) (by omega) far
  case inside =>
    cases (step_next_iff hh).1 h with
    | rest idle => simp [State.busy, ht] at idle
    | fail | finish | header | control => cases ht
    | literal | copyLast => exact absurd ht (s.tokenEndSt_ne nofun nofun nofun)
    | backRef _ _ _ near => exact near
    | copyMore _ ready =>
      obtain ⟨-, -, -, disp_le, -⟩ := s.copyReady_iff.1 ready
      exact disp_le.trans (by rw [s.op_add_one (State.room_of_copyReady ready).1]; omega)

/-- Settles O26, by the clause of the invariant for a copy in progress. -/
theorem windowReadStaysInTheWindow : Obligations.WindowReadStaysInTheWindow := by
  unfold Obligations.WindowReadStaysInTheWindow
  intro s hi st
  obtain ⟨-, ready, -, disp_max⟩ := hi.copy st
  obtain ⟨-, -, disp_pos, disp_le, -⟩ := s.copyReady_iff.1 ready
  have below : s.op.toNat - s.disp.toNat < s.op.toNat := by omega
  exact ⟨rfl, disp_pos, Nat.le_min.2 ⟨disp_le, disp_max⟩, below, hi.out_listed _ below⟩

/-- Settles O46: a failing step leaves every position as it was, and where it was its cause says. -/
theorem failureShowsItsPosition : Obligations.FailureShowsItsPosition := by
  unfold Obligations.FailureShowsItsPosition
  intro s t hi hh hs h ht
  obtain ⟨e, fails, rfl⟩ := step_eq_raise hh hs h ht
  refine ⟨fun st => hi.zero_of_check st, fun st => ⟨fails.ip_of_ctrl hi.steady st, ?flags⟩,
    fun st _ flag => ⟨fails.ip_of_literal hi.steady st flag, rfl⟩, fun st kind flag => ⟨?backRef, rfl⟩,
    fun kind => ⟨rfl, rfl, ?far⟩⟩
  case flags =>
    obtain ⟨-, ⟨idx, -⟩ | ⟨idx, ctrl, -⟩⟩ := hi.ctrl st
    · exact .inl idx
    · exact .inr ⟨idx, ctrl⟩
  case backRef =>
    obtain rfl : e = .truncatedInput := kind
    exact fails.ip_of_backRef hi.steady st flag
  case far =>
    obtain rfl : e = .invalidBackReference := kind
    exact fails.far

/-- Settles O52, by the frame of an engine step. -/
theorem engineNeverWritesTheInput : Obligations.EngineNeverWritesTheInput := by
  unfold Obligations.EngineNeverWritesTheInput
  intro s t hh h
  have move := (step_next_iff hh).1 h
  exact ⟨move.inMem_eq, move.inLen_eq, move.inByte_eq⟩

/-- Settles O53, by the moves of the engine; a run's step that does not fail stays in the stream. -/
theorem cursorMovesForwardOnly : Obligations.CursorMovesForwardOnly := by
  unfold Obligations.CursorMovesForwardOnly
  intro s t hi hh h
  have move := (step_next_iff hh).1 h
  exact ⟨move.ip_eq hi, fun ht busy => (move.streaming hi.steady busy ht).ip_le⟩

/-- Settles O54: an engine step leaves the output or appends a byte; a header's output was empty before. -/
theorem outputIsAppendOnly : Obligations.OutputIsAppendOnly := by
  unfold Obligations.OutputIsAppendOnly
  intro s t hi hh h
  have move := (step_next_iff hh).1 h
  obtain ⟨mem, op⟩ | ⟨room, op, b, mem⟩ := move.output
  case inl =>
    refine .inl ⟨?_, fun a => by rw [State.outByte, State.outByte, mem, move.resets_eq]⟩
    obtain op | ⟨st, op⟩ := op
    · exact op
    · obtain ⟨-, empty, -⟩ := hi.zero_of_check st
      exact op.trans empty.symm
  case inr =>
    refine .inr ⟨by rw [op, s.op_add_one room], State.op_lt_outCap room, fun a ha => ?_⟩
    rw [State.outByte, State.outByte, mem, Memory.read_write_other _ _ _ _ ha, move.resets_eq]

/-- Settles O55: a move or a stop of the engine is one with the other input too. -/
theorem trailingInputHasNoEffect : Obligations.TrailingInputHasNoEffect := by
  unfold Obligations.TrailingInputHasNoEffect
  intro s m hh agree
  have hh' : ({ s with inMem := m } : State).host = [] := hh
  have stops (o : Out) (h : step s = o) (ne : ∀ t, o ≠ .next t) : step { s with inMem := m } = o := by
    rw [step_engine hh] at h
    have stop := engineStop_of_ne_next fun t => h ▸ ne t
    rw [h] at stop
    exact (step_engine hh').trans (stop.withInput m).engineStep_eq
  refine ⟨fun t h => ?next, fun e h => stops _ h nofun, fun r h => stops _ h nofun⟩
  case next => exact (step_next_iff hh').2 (((step_next_iff hh).1 h).withInput agree)

/-- Settles O56, by the move of the engine with the other output. -/
theorem staleOutputHasNoEffect : Obligations.StaleOutputHasNoEffect := by
  unfold Obligations.StaleOutputHasNoEffect
  intro s t m _ hh agree h
  have move := (step_next_iff hh).1 h
  obtain ⟨m', move', agree'⟩ := move.withOutput agree
  have hh' : ({ s with outMem := m } : State).host = [] := hh
  refine ⟨_, (step_next_iff hh').2 move', rfl, fun a ha => ?_⟩
  simp only [State.outByte, agree' a ha]

/-- Settles O57, by the moves of the engine and the effects of the host. -/
theorem parametersNeverChange : Obligations.ParametersNeverChange := by
  unfold Obligations.ParametersNeverChange
  intro s t h
  obtain move | ⟨m, ms, -, effect⟩ := step_next h
  · exact move.cfg_eq
  · exact effect.cfg_eq

end Sys2Proof.Proofs
end

section
/-! SUPPORT. An overlapping copy as a repetition of its window (42_backref.md R146), and the statement of 42_backref.md
it settles. -/
namespace Sys2Proof.Machine

/-- A copy repeats the last `disp` bytes, as they were before it, with period `disp` (42_backref.md R146). -/
theorem State.copyBytes_periodic {n j : Nat} {s : State} (room : s.op.toNat + n ≤ s.size.toNat)
    (disp_pos : 1 ≤ s.disp.toNat) (disp_le : s.disp.toNat ≤ s.op.toNat) (hj : j < n) :
    (s.copyBytes n).outByte (s.op.toNat + j) = s.outByte (s.op.toNat - s.disp.toNat + j % s.disp.toNat) := by
  induction j using Nat.strong_induction_on with
  | _ j ih =>
    rw [State.copyBytes_outByte room disp_pos disp_le hj]
    by_cases first : j < s.disp.toNat
    · rw [State.copyBytes_outByte_other room (by omega), Nat.mod_eq_of_lt first]
      congr 1
      omega
    · have back : s.op.toNat + j - s.disp.toNat = s.op.toNat + (j - s.disp.toNat) := by omega
      rw [back, ih (j - s.disp.toNat) (by omega) (by omega), ← Nat.mod_eq_sub_mod (by omega)]

end Sys2Proof.Machine

namespace Sys2Proof.Proofs

open Sys2Proof.Machine

/-- Settles O27: the run of the copy in closed form, whose bytes repeat the window. -/
theorem overlappingCopyRepeatsThePeriod : Obligations.OverlappingCopyRepeatsThePeriod := by
  unfold Obligations.OverlappingCopyRepeatsThePeriod
  intro s hh st rem_pos rem_le disp_pos disp_le hf
  have ready : s.copyReady = true := s.copyReady_iff.2 ⟨rem_pos, rem_le, disp_pos, disp_le, hf⟩
  have room : s.op.toNat + s.rem.toNat ≤ s.size.toNat := by omega
  obtain ⟨n, hn⟩ := Nat.exists_eq_add_of_le' rem_pos
  rw [hn] at room ⊢
  refine ⟨_, run_copy hh st ready hn, fun j hj => ?period, fun a ha => ?kept, ?op, ?flagIdx, rfl,
    (State.afterToken_st_ne _).1⟩
  case period => exact State.copyBytes_periodic room disp_pos disp_le hj
  case kept => exact State.copyBytes_outByte_other room ha
  case op => exact State.copyBytes_op room
  case flagIdx =>
    have idx : (s.copyBytes (n + 1)).flagIdx = s.flagIdx := (congrArg State.flagIdx (s.copyBytes_frame (n + 1)) :)
    rw [State.afterToken_flagIdx, idx]
    exact s.flagIdx_add_one hf

end Sys2Proof.Proofs
end

section
/-! SUPPORT. The register map, the host's access to the memories and the result it takes (10_state.md section 3,
44_host.md R183, R184), and the statements they settle. -/
namespace Sys2Proof.Machine

/-! ### The bits of a register -/

/-- The bits above a field's width, where a mask of the field has zeros, are 0 in the field's value. -/
theorem setWidth_getLsbD_of_mask {w k : Nat} (x : BitVec w)
    (h : ((BitVec.allOnes w).setWidth 32).getLsbD k = false) : (x.setWidth 32).getLsbD k = false := by
  rw [BitVec.getLsbD_setWidth, BitVec.getLsbD_allOnes, Bool.and_eq_false_iff, decide_eq_false_iff_not,
    decide_eq_false_iff_not] at h
  rw [BitVec.getLsbD_setWidth]
  obtain h | h := h
  · simp [h]
  · rw [BitVec.getLsbD_of_ge x k (Nat.le_of_not_lt h), Bool.and_false]

/-- Every bit below the mask of all 32 bits is defined. -/
theorem getLsbD_of_mask {k : Nat} (x : Word) (h : ((BitVec.allOnes 32).setWidth 32).getLsbD k = false) :
    x.getLsbD k = false := by
  rw [← BitVec.setWidth_eq x]
  exact setWidth_getLsbD_of_mask x h

/-- STATUS has no bits but those of its mask. -/
theorem State.statusWord_of_mask (s : State) {k : Nat} (h : (regMask 1).getLsbD k = false) :
    s.statusWord.getLsbD k = false := by
  rcases Nat.lt_or_ge k 7 with hk | hk
  · have undefinedBit : ∀ k < 7, (regMask 1).getLsbD k = false → k = 3 := by decide
    rw [undefinedBit k hk h, s.statusWord_getLsbD]
    rfl
  · exact s.statusWord_high hk

/-- The bits a register does not define read 0 (10_state.md R33). -/
theorem State.regValue_of_mask (s : State) :
    ∀ (n k : Nat), (regMask n).getLsbD k = false → (s.regValue n).getLsbD k = false
  | 0, _, h => h
  | 1, _, h => s.statusWord_of_mask h
  | 2, _, h => setWidth_getLsbD_of_mask s.errcode.code h
  | 3, _, h => getLsbD_of_mask s.inLen h
  | 4, _, h => setWidth_getLsbD_of_mask s.size h
  | 5, _, h => getLsbD_of_mask s.ip h
  | 6, _, h => setWidth_getLsbD_of_mask s.op h
  | 7, _, h => setWidth_getLsbD_of_mask (s.flagIdx ++ s.ctrl) h
  | _ + 8, _, h => h

/-- CTRL_STATE as a number (10_state.md R41). -/
theorem State.ctrlStateWord_toNat (s : State) : s.ctrlStateWord.toNat = 256 * s.flagIdx.toNat + s.ctrl.toNat := by
  have := s.flagIdx.isLt
  have := s.ctrl.isLt
  rw [State.ctrlStateWord, BitVec.toNat_setWidth, BitVec.toNat_append, ← Nat.shiftLeft_add_eq_or_of_lt s.ctrl.isLt,
    Nat.shiftLeft_eq]
  omega

/-! ### The host's access to the memories -/

/-- While BUSY, a write to `IN` is refused (log entry 9). -/
theorem hostWriteIn_of_busy (a : Nat) (b : Byte) {s : State} (busy : s.busy = true) :
    hostWriteIn a b s = .refused .hostWriteWhileBusy :=
  if_pos busy

/-- While BUSY, a write to `OUT` is refused (log entry 9). -/
theorem hostWriteOut_of_busy (a : Nat) (b : Byte) {s : State} (busy : s.busy = true) :
    hostWriteOut a b s = .refused .hostWriteWhileBusy :=
  if_pos busy

/-- A read of `IN` at or above its capacity is a fault (log entry 13). -/
theorem hostReadIn_outside {a : Nat} {s : State} (cap : s.cfg.inCap ≤ a) :
    hostReadIn a s = .fault (.noSuchOffset .input a) :=
  if_neg (Nat.not_lt.2 cap)

/-- A write to `IN` at or above its capacity, while not BUSY, is a fault (log entry 13). -/
theorem hostWriteIn_outside {a : Nat} (b : Byte) {s : State} (idle : s.busy = false) (cap : s.cfg.inCap ≤ a) :
    hostWriteIn a b s = .fault (.noSuchOffset .input a) := by
  rw [hostWriteIn, idle, if_neg Bool.false_ne_true, if_neg (Nat.not_lt.2 cap)]

/-- A read of `OUT` at or above its capacity is a fault (log entry 13). -/
theorem hostReadOut_outside {a : Nat} {s : State} (cap : s.cfg.outCap ≤ a) :
    hostReadOut a s = .fault (.noSuchOffset .output a) :=
  if_neg (Nat.not_lt.2 cap)

/-- A write to `OUT` at or above its capacity, while not BUSY, is a fault (log entry 13). -/
theorem hostWriteOut_outside {a : Nat} (b : Byte) {s : State} (idle : s.busy = false) (cap : s.cfg.outCap ≤ a) :
    hostWriteOut a b s = .fault (.noSuchOffset .output a) := by
  rw [hostWriteOut, idle, if_neg Bool.false_ne_true, if_neg (Nat.not_lt.2 cap)]

/-- The host sees what it wrote to `OUT` itself. -/
theorem State.outSeen_of_mem {s : State} {a : Nat} (h : a ∈ s.outHost) : s.outSeen a = s.outByte a :=
  if_pos h

/-- A write of the host to `OUT` changes the byte at its offset, and what the host sees of no other. -/
theorem State.writeOut_bytes (s : State) (a : Nat) (b : Byte) (l : List HostMove) :
    let t : State := { s with outMem := s.outMem.write a b, outHost := addOffset s.outHost a, host := l }
    t.outByte a = b ∧ t.outSeen a = b ∧ ∀ k, k ≠ a → t.outByte k = s.outByte k ∧ t.outSeen k = s.outSeen k := by
  intro t
  have written : t.outByte a = b := by simp [t, State.outByte]
  have kept (k : Nat) (hk : k ≠ a) : t.outByte k = s.outByte k := by
    simp only [t, State.outByte, Memory.read_write_other _ _ _ _ hk]
  have mem : a ∈ t.outHost := (mem_addOffset _ _ _).2 (.inl rfl)
  refine ⟨written, (State.outSeen_of_mem mem).trans written, fun k hk => ⟨kept k hk, ?_⟩⟩
  have mem_iff : k ∈ t.outHost ↔ k ∈ s.outHost := by simp [t, hk]
  simp only [State.outSeen, mem_iff, kept k hk]
  rfl

/-! ### The result -/

/-- In DONE the host sees the bytes of the output. -/
theorem State.outSeen_of_done {s : State} {a : Nat} (st : s.st = .done) (ha : a < s.op.toNat) :
    s.outSeen a = s.outByte a := by
  simp [State.outSeen, st, ha]

end Sys2Proof.Machine

namespace Sys2Proof.Proofs

open Sys2Proof.Machine

/-- Settles O38, by the field each register shows, widened to 32 bits. -/
theorem registerMapHolds : Obligations.RegisterMapHolds := by
  unfold Obligations.RegisterMapHolds
  intro s
  refine ⟨rfl, rfl, ?errcode, rfl, ?size, rfl, ?op, s.ctrlStateWord_toNat, fun n hn => ?high, s.regValue_of_mask⟩
  case errcode => exact BitVec.toNat_setWidth_of_le (by decide)
  case size => exact BitVec.toNat_setWidth_of_le (by decide)
  case op => exact BitVec.toNat_setWidth_of_le (by decide)
  case high =>
    obtain ⟨n, rfl⟩ := Nat.exists_eq_add_of_le' hn
    rfl

/-- Settles O39, by the host's access that is the next step. -/
theorem hostAccessesTheMemories : Obligations.HostAccessesTheMemories := by
  unfold Obligations.HostAccessesTheMemories
  refine ⟨fun s a b ms h cap => ⟨fun idle => ?writeIn, fun busy => ?refuseIn⟩, fun s a ms h cap => ?readIn,
    fun s a b ms h cap => ⟨fun idle => ?writeOut, fun busy => ?refuseOut⟩,
    fun s a ms h cap => ⟨fun idle => ?readOut, fun busy => ?readBusy⟩⟩
  case writeIn =>
    refine ⟨_, step_writeIn h idle cap, rfl, ?_, fun k hk => ?_⟩
    · simp [State.inByte]
    · simp only [State.inByte, Memory.read_write_other _ _ _ _ hk]
  case refuseIn => exact (step_host h (.inl nofun)).trans (hostWriteIn_of_busy a b busy)
  case readIn => exact (step_host h (.inl nofun)).trans (hostReadIn_of_lt cap)
  case writeOut =>
    obtain ⟨written, seen, kept⟩ := s.writeOut_bytes a b ms
    exact ⟨_, (step_host h (.inl nofun)).trans (hostWriteOut_of_idle b idle cap), rfl, written, seen, kept⟩
  case refuseOut => exact (step_host h (.inl nofun)).trans (hostWriteOut_of_busy a b busy)
  case readOut => exact (step_host h (.inl nofun)).trans (hostReadOut_of_idle idle cap)
  case readBusy => exact ⟨_, (step_host h (.inl nofun)).trans (hostReadOut_of_busy busy cap)⟩

/-- Settles O40, by the host's access that is the next step. -/
theorem offsetsOutsideAMemoryFault : Obligations.OffsetsOutsideAMemoryFault := by
  unfold Obligations.OffsetsOutsideAMemoryFault
  refine ⟨fun s a ms h cap => ?readIn, fun s a b ms h idle cap => ?writeIn, fun s a ms h cap => ?readOut,
    fun s a b ms h idle cap => ?writeOut⟩
  case readIn => exact (step_host h (.inl nofun)).trans (hostReadIn_outside cap)
  case writeIn => exact (step_host h (.inl nofun)).trans (hostWriteIn_outside b idle cap)
  case readOut => exact (step_host h (.inl nofun)).trans (hostReadOut_outside cap)
  case writeOut => exact (step_host h (.inl nofun)).trans (hostWriteOut_outside b idle cap)

/-- Settles O41: the result is the output, which has the declared size in DONE. -/
theorem resultIsPresented : Obligations.ResultIsPresented := by
  unfold Obligations.ResultIsPresented
  refine ⟨fun s hi st => ?done, fun s hi st => ?error, fun s before => ?before⟩
  case done =>
    obtain ⟨full, -⟩ := hi.done st
    refine ⟨s.output, State.result_of_done st, by rw [State.output_length, full], ?_, ?_, fun a ha => ⟨?_, ?_⟩⟩
    · simp [State.regValue, full]
    · rw [s.statusWord_getLsbD, st]
      rfl
    · simp [State.output, full, ha]
    · exact State.outSeen_of_done st (full ▸ ha)
  case error =>
    refine ⟨by simp [State.result, st], hi.errcode_iff.1 st, ?_⟩
    rw [s.statusWord_getLsbD, st]
    rfl
  case before =>
    obtain busy | idle := before
    · cases h : s.result with
      | none => rfl
      | some r =>
        rw [State.not_busy_of_result h] at busy
        cases busy
    · exact State.result_of_idle idle

/-- Settles O43: the reset state is the one the reset signal leaves, and its engine is at rest. -/
theorem resetStateHoldsTheResetValues : Obligations.ResetStateHoldsTheResetValues := by
  unfold Obligations.ResetStateHoldsTheResetValues
  exact ⟨rfl, rfl, rfl, rfl, State.resetSignal_regValue State.reset, rfl, step_rest rfl rfl⟩

end Sys2Proof.Proofs
end
